-- ==== Sys2Proof/Word.lean ====
section
/-! DEFINITION. Word types of the display-list decoder and the numeric domain `Num` (00_scope.md R7, R8).
Addresses, indices and counters are natural numbers, with no wrap-around (R8, D35). -/

namespace Sys2Proof

/-- One byte of the memory image (R50). -/
abbrev Byte := BitVec 8

/-- A 32-bit command word, `w0` or `w1` (R7). -/
abbrev Word := BitVec 32

/-- The 64-bit concatenation `C = w0 : w1` of a command (R7). -/
abbrev Command := BitVec 64

/-- The numeric domain `Num` of R8: IEEE 754 binary64 (D3). A finite number is a sign, a biased
exponent `0 .. 2046` and a 52-bit fraction, so every value of the type is a binary64 number and no two
finite values of the type are the same number, the two signed zeros apart. There is one NaN (log 8). -/
inductive Binary64 where
  | nan
  | inf (neg : Bool)
  | finite (neg : Bool) (bexp : Fin 2047) (frac : BitVec 52)
  deriving DecidableEq, Repr, Inhabited

/-- An element of the state that is either `Unwritten` or holds a value. `unwritten` is the SPEC'S OWN
value (R24, R33 to R35, R180): reading it raises the architected error `UninitializedRead` (R161). -/
inductive Slot (α : Type) where
  | unwritten
  | written (value : α)
  deriving DecidableEq, Repr, Inhabited

end Sys2Proof
end

