-- ==== Sys2Proof/Syntax.lean ====
section
/-! DEFINITION. The commands: one constructor per row of spec/opcode_table.json, holding the operand fields
of 30_encoding.md R73 to R79. A field the spec calls "ignored" is no operand: no rule reads it (log 12). -/

namespace Sys2Proof

inductive Instr where
  /-- `G_MTX`, matrix op (R75, R126). -/
  | mtx (push load proj : Bool) (addr : Word)
  /-- `G_VTX`, load vertices: `nm1` is the number of records minus 1 (R73, R103). -/
  | vtx (nm1 v0 : BitVec 4) (addr : Word)
  /-- `G_DL`, branch/call with `nopush = 0`: a call (R77, R140). -/
  | dl (addr : Word)
  /-- `G_DL_NOPUSH`, branch/call with `nopush = 1`: a tail branch (R77, R140). -/
  | dlNopush (addr : Word)
  /-- `G_ENDDL`, return (R78, R142). -/
  | enddl
  /-- `G_MW_SEGMENT`, set segment (R79, R150). -/
  | mwSegment (seg : BitVec 4) (base : Word)
  /-- `G_POPMTX`, pop matrix (R76, R127). -/
  | popmtx
  /-- `G_TRI1`, draw triangle: three index bytes, each ten times a register index (R74, R107). -/
  | tri1 (ia ib ic : Byte)
  /-- `NOOP_MOVEWORD_OTHER`, opcode `0xBC` with a sub-opcode other than `0x06` (R72, R155). -/
  | noopMovewordOther (sub : Byte)
  /-- `NOOP_UNRECOGNIZED`, an opcode that no other row has (R72, R155). -/
  | noopUnrecognized (opcode : Byte)
  deriving DecidableEq, Repr, Inhabited

end Sys2Proof
end

