-- ==== Sys2Proof/WellFormed.lean ====
section
/-! DEFINITION. Which terms of `Instr` are commands: the operand fields have the widths of the encoding by
their types, so only the two no-op rows carry a check (30_encoding.md R72, R80). -/

namespace Sys2Proof

/-- The opcodes that 30_encoding.md R72 recognises (R80). -/
def recognisedOpcodes : List Byte := [0x01, 0x04, 0x06, 0xB8, 0xBC, 0xBD, 0xBF]

/-- A `NOOP_MOVEWORD_OTHER` has not the sub-opcode of set segment, and a `NOOP_UNRECOGNIZED` has none of the
recognised opcodes (R72, R155). -/
def Instr.wf : Instr → Bool
  | .mtx _ _ _ _ => true
  | .vtx _ _ _ => true
  | .dl _ => true
  | .dlNopush _ => true
  | .enddl => true
  | .mwSegment _ _ => true
  | .popmtx => true
  | .tri1 _ _ _ => true
  | .noopMovewordOther sub => sub != 0x06
  | .noopUnrecognized opcode => !recognisedOpcodes.contains opcode

end Sys2Proof
end

