-- ==== Sys2Proof/Decode.lean ====
section
/-! DEFINITION. Command format, decoder and encoder (30_encoding.md R70 to R82), and the table of
spec/opcode_table.json as data. The decoder is total on 64-bit commands; on bytes it rejects, by name, only a
list shorter than a command. -/

namespace Sys2Proof

/-- `w[lo+n-1:lo]` of R7. -/
def field (w : Word) (lo n : Nat) : BitVec n := w.extractLsb' lo n

/-- `w[i]` of R7. -/
def bit (w : Word) (i : Nat) : Bool := w.getLsbD i

/-- R72: the opcode is `w0[31:24]`; the first matching line selects the case, and the operands are the fields
of R73 to R79. -/
def decode (w0 w1 : Word) : Instr :=
  let op := field w0 24 8
  if op = 0x01 then .mtx (bit w0 18) (bit w0 17) (bit w0 16) w1
  else if op = 0x04 then .vtx (field w0 20 4) (field w0 16 4) w1
  else if op = 0x06 then if bit w0 16 then .dlNopush w1 else .dl w1
  else if op = 0xB8 then .enddl
  else if op = 0xBC then
    if field w0 0 8 = 0x06 then .mwSegment (field w0 10 4) w1 else .noopMovewordOther (field w0 0 8)
  else if op = 0xBD then .popmtx
  else if op = 0xBF then .tri1 (field w1 16 8) (field w1 8 8) (field w1 0 8)
  else .noopUnrecognized op

/-- Why bytes are no command: fewer than 8 are there (R70). The machine itself never meets this: a fetch that
does not fit the image raises `OutOfRange` before it reads (R71). -/
inductive DecodeError where
  | truncated
  deriving DecidableEq, Repr

/-- A 32-bit word from four bytes, the first the most significant (R54, R70). -/
def wordOfBytes (b0 b1 b2 b3 : Byte) : Word := b0 ++ b1 ++ b2 ++ b3

/-- The four bytes of a word in the order memory holds them (R54). -/
def bytesOfWord (w : Word) : List Byte := [field w 24 8, field w 16 8, field w 8 8, field w 0 8]

/-- Decode the command at the front of a list of bytes, and give the bytes after it (R70). -/
def decodeBytes : List Byte → Except DecodeError (Instr × List Byte)
  | b0 :: b1 :: b2 :: b3 :: b4 :: b5 :: b6 :: b7 :: rest =>
    .ok (decode (wordOfBytes b0 b1 b2 b3) (wordOfBytes b4 b5 b6 b7), rest)
  | _ => .error .truncated

/-- One bit as a field. -/
def flag (b : Bool) : BitVec 1 := BitVec.ofBool b

/-- The words `w0`, `w1` of a command, from the layouts of R73 to R79; an ignored field gets the conventional
value of those tables (log 12). -/
def encode : Instr → Word × Word
  | .mtx push load proj addr => (0x01#8 ++ (0#5 ++ (flag push ++ (flag load ++ (flag proj ++ 64#16)))), addr)
  | .vtx nm1 v0 addr => (0x04#8 ++ (nm1 ++ (v0 ++ BitVec.ofNat 16 (16 * (nm1.toNat + 1)))), addr)
  | .dl addr => (0x06#8 ++ 0#24, addr)
  | .dlNopush addr => (0x06#8 ++ (0#7 ++ (1#1 ++ 0#16)), addr)
  | .enddl => (0xB8#8 ++ 0#24, 0)
  | .mwSegment seg base => (0xBC#8 ++ (0#10 ++ (seg ++ (0#2 ++ 0x06#8))), base)
  | .popmtx => (0xBD#8 ++ 0#24, 0)
  | .tri1 ia ib ic => (0xBF#8 ++ 0#24, 0#8 ++ (ia ++ (ib ++ ic)))
  | .noopMovewordOther sub => (0xBC#8 ++ (0#16 ++ sub), 0)
  | .noopUnrecognized opcode => (opcode ++ 0#24, 0)

/-- The eight bytes of a command as memory holds them (R54, R70). -/
def encodeBytes (i : Instr) : List Byte := bytesOfWord (encode i).1 ++ bytesOfWord (encode i).2

/-- The 64-bit command `C = w0 : w1` of R7. -/
def commandOf (w0 w1 : Word) : Command := w0 ++ w1

/-- The opcode byte `w0[31:24]` of each command (R72): what an error record carries (R164). -/
def Instr.opcode : Instr → Byte
  | .mtx _ _ _ _ => 0x01
  | .vtx _ _ _ => 0x04
  | .dl _ => 0x06
  | .dlNopush _ => 0x06
  | .enddl => 0xB8
  | .mwSegment _ _ => 0xBC
  | .popmtx => 0xBD
  | .tri1 _ _ _ => 0xBF
  | .noopMovewordOther _ => 0xBC
  | .noopUnrecognized opcode => opcode

/-- A row of spec/opcode_table.json: a command `C` matches it when `C &&& mask = value`. -/
structure TableRow where
  mnemonic : String
  value : Command
  mask : Command
  deriving DecidableEq, Repr

/-- spec/opcode_table.json, in its priority order. -/
def opcodeTable : List TableRow :=
  [ ⟨"G_MTX", 0x0100000000000000, 0xFF00000000000000⟩,
    ⟨"G_VTX", 0x0400000000000000, 0xFF00000000000000⟩,
    ⟨"G_DL", 0x0600000000000000, 0xFF01000000000000⟩,
    ⟨"G_DL_NOPUSH", 0x0601000000000000, 0xFF01000000000000⟩,
    ⟨"G_ENDDL", 0xB800000000000000, 0xFF00000000000000⟩,
    ⟨"G_MW_SEGMENT", 0xBC00000600000000, 0xFF0000FF00000000⟩,
    ⟨"G_POPMTX", 0xBD00000000000000, 0xFF00000000000000⟩,
    ⟨"G_TRI1", 0xBF00000000000000, 0xFF00000000000000⟩,
    ⟨"NOOP_MOVEWORD_OTHER", 0xBC00000000000000, 0xFF00000000000000⟩,
    ⟨"NOOP_UNRECOGNIZED", 0x0000000000000000, 0x0000000000000000⟩ ]

/-- The first row of the table that a command matches (the table's note: rows are tried in priority order). -/
def firstRow (c : Command) : Option TableRow :=
  opcodeTable.find? fun r => c &&& r.mask == r.value

/-- The table's name of each constructor's row. -/
def Instr.mnemonic : Instr → String
  | .mtx _ _ _ _ => "G_MTX"
  | .vtx _ _ _ => "G_VTX"
  | .dl _ => "G_DL"
  | .dlNopush _ => "G_DL_NOPUSH"
  | .enddl => "G_ENDDL"
  | .mwSegment _ _ => "G_MW_SEGMENT"
  | .popmtx => "G_POPMTX"
  | .tri1 _ _ _ => "G_TRI1"
  | .noopMovewordOther _ => "NOOP_MOVEWORD_OTHER"
  | .noopUnrecognized _ => "NOOP_UNRECOGNIZED"

/-- The 64-bit command that the low `nbits` bits of `w` are, numbered as spec/opcode_table.json numbers a
command: `w0` in bits 63:32 and `w1` in bits 31:0; every bit from `nbits` up is 0 (log 13). -/
def tableCommand (nbits w : Nat) : Command := BitVec.ofNat 64 (w % 2 ^ nbits)

/-- The bytes of a table word as memory holds them: `w0` first, each word big-endian (R54, R70). -/
def tableBytes (nbits w : Nat) : List Byte :=
  bytesOfWord ((tableCommand nbits w).extractLsb' 32 32) ++
    bytesOfWord ((tableCommand nbits w).extractLsb' 0 32)

/-- What the decoder reads from a table word. -/
def decodeTableWord (nbits w : Nat) : Option Instr :=
  match decodeBytes (tableBytes nbits w) with
  | .ok (i, _) => some i
  | .error _ => none

end Sys2Proof
end

