-- ==== Sys2Proof/Config.lean ====
section
/-! DEFINITION. The implementation parameters of 00_scope.md R6.

The parameters the spec leaves OPEN (`MemSize`, `Width`, `Height`, `MaxSteps`) are arguments of a parse and stand
in `ParseInput` (Sys2Proof/Machine/State.lean), arbitrary in every statement. Those it decides are fixed at the
decided value where they are used (log 7): `SegCount` 16, `SegBaseBits` 29, `MtxDepth` 16, `JmpDepth` 16 and
`VRegs` 64 in the type of State; `SegOffsetBits` 24 in `State.resolve`; `VtxMax` 16 as the range of the 4-bit
`nm1`; `VtxStride` 16 and `TriStride` 10 in Machine/Operands.lean; `Enc` in Decode.lean; `Arith` in
Machine/Arith.lean; `ScreenMatrix` in Machine/Transform.lean; `FarZ` and the byte of an unlisted address here. The
model's one free value, `Config.abandonedState`, stands beside State, since its type is State. -/

namespace Sys2Proof.Config

/-- `FarZ = 1`, the depth above which a triangle is rejected (R6, R105), as a binary64 number. -/
abbrev farZ : Binary64 := .finite false 1023 0

/-- What a byte of the image holds when the image does not list it (log 3). -/
def unlistedByte : Byte := 0

end Sys2Proof.Config
end

