-- ==== Sys2Proof/Machine/Arith.lean ====
section
/-! DEFINITION. `Arith` of 00_scope.md R6: IEEE 754 binary64 addition, multiplication and comparison, round to
nearest with ties to even (D3; 41_matrix.md R121, R128; log 9). Every finite binary64 number is an integer multiple of
2^-1074; operands are turned into those integers, the result is computed exactly, and rounded once at the end. -/

namespace Sys2Proof

/-- The magnitude of a finite number in units of 2^-1074. -/
def Binary64.magnitude (bexp : Fin 2047) (frac : BitVec 52) : Nat :=
  if bexp.val = 0 then frac.toNat else (4503599627370496 + frac.toNat) <<< (bexp.val - 1)

/-- A signed magnitude as an integer. -/
def Binary64.signed (neg : Bool) (m : Nat) : Int := if neg then -(m : Int) else (m : Int)

/-- `m / 2^d` rounded to the nearest integer, ties to even. -/
def Binary64.roundShift (m d : Nat) : Nat :=
  let q := m >>> d
  let r := m - q <<< d
  if 1 <<< d < 2 * r ∨ (2 * r = 1 <<< d ∧ q % 2 = 1) then q + 1 else q

/-- The binary64 number of a magnitude in units of 2^-1074 that has at most 53 significant bits; from 2^1024 up
it is an infinity. -/
def Binary64.ofMagnitude (neg : Bool) (m : Nat) : Binary64 :=
  if m < 4503599627370496 then .finite neg 0 (BitVec.ofNat 52 m)
  else if h : m.log2 - 51 < 2047 then
    .finite neg ⟨m.log2 - 51, h⟩ (BitVec.ofNat 52 (m >>> (m.log2 - 52)))
  else .inf neg

/-- The binary64 number nearest to `m / 2^sh` units of 2^-1074: the last place kept is the larger of one unit
and the 53rd significant bit. -/
def Binary64.round (neg : Bool) (m sh : Nat) : Binary64 :=
  let d := max sh (m.log2 - 52)
  .ofMagnitude neg (roundShift m d <<< (d - sh))

/-- The number's value in units of 2^-1074, an infinity standing at ±2^2098 (beyond every finite number, whose
magnitude is below 2^2098); a NaN has none. Two numbers with equal keys compare as equal. -/
def Binary64.key? : Binary64 → Option Int
  | .nan => none
  | .inf neg => some (signed neg (1 <<< 2098))
  | .finite neg bexp frac => some (signed neg (magnitude bexp frac))

/-- Addition (R121). An exact zero sum is +0 unless both operands are negative zeros. -/
def Binary64.add : Binary64 → Binary64 → Binary64
  | .nan, _ => .nan
  | _, .nan => .nan
  | .inf s, .inf t => if s = t then .inf s else .nan
  | .inf s, .finite _ _ _ => .inf s
  | .finite _ _ _, .inf t => .inf t
  | .finite s e f, .finite t e' f' =>
    let sum := signed s (magnitude e f) + signed t (magnitude e' f')
    if sum = 0 then .finite (s && t) 0 0 else round (decide (sum < 0)) sum.natAbs 0

/-- Multiplication (R121, R128: `inf * 0` is NaN). -/
def Binary64.mul : Binary64 → Binary64 → Binary64
  | .nan, _ => .nan
  | _, .nan => .nan
  | .inf s, .inf t => .inf (s ^^ t)
  | .inf s, .finite t e f => if magnitude e f = 0 then .nan else .inf (s ^^ t)
  | .finite s e f, .inf t => if magnitude e f = 0 then .nan else .inf (s ^^ t)
  | .finite s e f, .finite t e' f' => round (s ^^ t) (magnitude e f * magnitude e' f') 1074

/-- `a < b`; false when either is a NaN (R128). -/
def Binary64.lt (a b : Binary64) : Bool :=
  match a.key?, b.key? with
  | some x, some y => decide (x < y)
  | _, _ => false

/-- `a ≤ b`; false when either is a NaN (R128). -/
def Binary64.le (a b : Binary64) : Bool :=
  match a.key?, b.key? with
  | some x, some y => decide (x ≤ y)
  | _, _ => false

/-- `i / 2^k` as the nearest binary64 number, for `k ≤ 1074`; it is exact for every `|i| ≤ 2^53`. -/
def Binary64.ofDyadic (i : Int) (k : Nat) : Binary64 :=
  round (decide (i < 0)) (i.natAbs <<< (1074 - k)) 0

/-- An integer as a number (R102: coordinates are converted exactly). -/
def Binary64.ofInt (i : Int) : Binary64 := ofDyadic i 0

/-- A signed 16.16 fixed-point number: `i / 65536` (R120), exact. -/
def Binary64.ofFixed (i : Int) : Binary64 := ofDyadic i 16

/-- Positive zero. -/
abbrev Binary64.zero : Binary64 := .finite false 0 0

/-- One. -/
abbrev Binary64.one : Binary64 := .finite false 1023 0

/-- One half. -/
abbrev Binary64.half : Binary64 := .finite false 1022 0

/-- The 64-bit interchange pattern of a number (IEEE 754), for reading and writing states; the one NaN is given
as the quiet NaN of zero payload (log 8). -/
def Binary64.toBits : Binary64 → BitVec 64
  | .nan => 0x7FF8000000000000
  | .inf neg => BitVec.ofBool neg ++ 0x7FF#11 ++ 0#52
  | .finite neg bexp frac => BitVec.ofBool neg ++ BitVec.ofNat 11 bexp.val ++ frac

/-- The number of a 64-bit interchange pattern (IEEE 754). -/
def Binary64.ofBits (b : BitVec 64) : Binary64 :=
  let neg := b.getLsbD 63
  let e := (b.extractLsb' 52 11).toNat
  let frac := b.extractLsb' 0 52
  if h : e < 2047 then .finite neg ⟨e, h⟩ frac
  else if frac = 0 then .inf neg else .nan

end Sys2Proof
end

