-- ==== Sys2Proof/Machine/Transform.lean ====
section
/-! DEFINITION. Matrices: product, vertex transform, screen matrix and final matrix (41_matrix.md R121 to R123,
10_state.md R31, R35). -/

namespace Sys2Proof.Machine

/-- A 4 by 4 matrix of `Num`, `M[r][c]` with `r, c` in `0..3` (R8). -/
abbrev Mtx := Vector (Vector Binary64 4) 4

/-- The matrix of sixteen elements in row-major order (R120, D4). -/
def Mtx.ofElements (e : Fin 16 → Binary64) : Mtx :=
  Vector.ofFn fun r : Fin 4 => Vector.ofFn fun c : Fin 4 => e ⟨4 * r.val + c.val, by omega⟩

/-- R121: `((A[i][0]*B[0][j] + A[i][1]*B[1][j]) + A[i][2]*B[2][j]) + A[i][3]*B[3][j]`. -/
def matMul (A B : Mtx) : Mtx :=
  Vector.ofFn fun i : Fin 4 => Vector.ofFn fun j : Fin 4 =>
    ((((A[i][0].mul B[0][j]).add (A[i][1].mul B[1][j])).add (A[i][2].mul B[2][j])).add
      (A[i][3].mul B[3][j]))

/-- R122: component `j` of `Xform((x, y, z), M)`, `((x*M[0][j] + y*M[1][j]) + z*M[2][j]) + M[3][j]`. -/
def xform (x y z : Binary64) (M : Mtx) (j : Fin 4) : Binary64 :=
  (((x.mul M[0][j]).add (y.mul M[1][j])).add (z.mul M[2][j])).add M[3][j]

/-- R31: the screen matrix of a viewport `w` by `h`. Division by 2 is multiplication by one half: both round the
same real number (log 10). -/
def screenMatrix (w h : Nat) : Mtx :=
  let hw := (Binary64.ofInt w).mul .half
  let hh := (Binary64.ofInt h).mul .half
  let nhh := (Binary64.ofInt (-(h : Int))).mul .half
  #v[ #v[hw, .zero, .zero, .zero],
      #v[.zero, nhh, .zero, .zero],
      #v[.zero, .zero, .one, .zero],
      #v[hw, hh, .zero, .one] ]

/-- R35: `FinalOf(M, P, S) = MatMul(MatMul(M, P), S)`, `Unwritten` while `M` or `P` is (D7, D8). -/
def finalOf (M P : Slot Mtx) (S : Mtx) : Slot Mtx :=
  match M, P with
  | .written m, .written p => .written (matMul (matMul m p) S)
  | _, _ => .unwritten

end Sys2Proof.Machine
end

