-- ==== Sys2Proof/Machine/State.lean ====
section
/-! DEFINITION. The state record of 10_state.md R20, the configuration of a parse (R21, R23), the error record
(60_exceptions.md R164), the model's faults and refusals, and the state after reset (70_reset_and_hazards.md
R180). -/

namespace Sys2Proof.Machine

/-- The configuration of a parse: what the caller supplies, fixed for the whole parse (R21, R23, R182; the OPEN
parameters of R6). -/
structure ParseInput where
  /-- The memory image's bytes, as a list of (address, byte) pairs in canonical form: addresses strictly rising,
  no zero byte listed; an unlisted address holds 0 (log 3). What it lists at or beyond `memSize` is no part of
  the image, and no rule reads it. -/
  image : List Host.Cell
  /-- `MemSize` (R6). -/
  memSize : Nat
  /-- The starting address, absolute, already resolved (R23). -/
  startAddr : Nat
  /-- `Width` (R6). -/
  width : Nat
  /-- `Height` (R6). -/
  height : Nat
  /-- `MaxSteps` (R6). -/
  maxSteps : Nat
  deriving DecidableEq, Repr, Inhabited

/-- A transformed position with its source address: a vertex register's content (R24) and an entry of the
output vertex buffer (R38). -/
structure Vertex where
  x : Binary64
  y : Binary64
  z : Binary64
  src : Nat
  deriving DecidableEq, Repr, Inhabited

/-- An entry of the output face buffer: three indices into `VOUT` and the draw command's address (R39). -/
structure Face where
  a : Nat
  b : Nat
  c : Nat
  src : Nat
  deriving DecidableEq, Repr, Inhabited

/-- The error kinds of R161. -/
inductive ErrorKind where
  | outOfRange
  | stackOverflow
  | stackUnderflow
  | unboundedExecution
  | uninitializedRead
  | invalidVertexIndex
  deriving DecidableEq, Repr, Inhabited

/-- The error record of R164. Its `code` is a function of its kind (`ErrorKind.code`, R161). -/
structure ErrorRecord where
  kind : ErrorKind
  pc : Nat
  opcode : Option Byte
  deriving DecidableEq, Repr, Inhabited

/-- R37. -/
inductive Status where
  | running
  | done
  | faulted (err : ErrorRecord)
  deriving DecidableEq, Repr, Inhabited

/-- The state record of R20, and the configuration of the parse it belongs to (log 1). -/
structure State where
  /-- R25: the next command's address between steps, the executing command's address plus 8 during one. -/
  pc : Nat
  /-- `VR[0..63]` (R24). -/
  vr : Vector (Slot Vertex) 64
  /-- `SEG[0..15]` (R32). -/
  seg : Vector (BitVec 29) 16
  /-- `MS[0..15]` (R33). -/
  ms : Vector (Slot Mtx) 16
  /-- `MSP`, `0..15` (R28). -/
  msp : Fin 16
  /-- `P` (R34). -/
  projMtx : Slot Mtx
  /-- `F` (R35). -/
  finalMtx : Slot Mtx
  /-- `S` (R31). -/
  screenMtx : Mtx
  /-- `JS[0..15]` (R36): entries below `jsp` are live. -/
  js : Vector Nat 16
  /-- `JSP`, `0..16` (R29). -/
  jsp : Fin 17
  /-- `VOUT` (R38). -/
  vout : List Vertex
  /-- `FOUT` (R39). -/
  fout : List Face
  /-- `CmdCount` (R30). -/
  cmdCount : Nat
  /-- `TriCount` (R30). -/
  triCount : Nat
  /-- `VtxCount` (R30). -/
  vtxCount : Nat
  /-- R37. -/
  status : Status
  /-- The configuration of the parse: no state of the block (R21); no step changes it (log 1). -/
  input : ParseInput
  deriving DecidableEq, Repr, Inhabited

end Sys2Proof.Machine

namespace Sys2Proof

/-- FREE VALUE (log 4). What the rest of the state holds once a parse that stood in the given state has failed:
R163 abandons it and 93_implementation_defined.md I3 lets it be any value. Nothing constrains it. -/
opaque Config.abandonedState : Machine.State → Machine.State

end Sys2Proof

namespace Sys2Proof.Machine

/-- Why the model stops without a next state. -/
inductive Fault where
  /-- Raised by `step` when `status` is `Done` or `Faulted`: both are final and no step follows (R37, D37).
  Safe: the machine has no such step. -/
  | parseEnded
  deriving DecidableEq, Repr

/-- What the model refuses. -/
inductive Refusal where
  /-- Raised by an arm of `exec` for an instruction without a meaning; no arm does so now. Safe. -/
  | notModelled (mnemonic : String)
  /-- Raised by `step` for a configuration outside its domain, which is refused before any step (R6, R182, D28,
  I16). Safe: no parse of such a configuration starts. -/
  | invalidConfiguration
  deriving DecidableEq, Repr

/-- The state at the start of a parse (R180), the block's only reset. The dead jump-stack slots, which R180
leaves unspecified and no rule reads, hold 0 (log 11). -/
def State.start (inp : ParseInput) : State where
  pc := inp.startAddr
  vr := Vector.replicate 64 .unwritten
  seg := Vector.replicate 16 0
  ms := Vector.replicate 16 .unwritten
  msp := 0
  projMtx := .unwritten
  finalMtx := .unwritten
  screenMtx := screenMatrix inp.width inp.height
  js := Vector.replicate 16 0
  jsp := 0
  vout := []
  fout := []
  cmdCount := 0
  triCount := 0
  vtxCount := 0
  status := .running
  input := inp

/-- The configuration the spec's own programs share (95_test_vectors.md section 3), with an image of zeros: the
model's choice, since the caller supplies it (log 2). -/
def ParseInput.default : ParseInput where
  image := []
  memSize := 0x1000
  startAddr := 0x100
  width := 320
  height := 240
  maxSteps := 100

/-- The machine right after reset: a parse of `ParseInput.default` at its start (R180, log 2). -/
def State.reset : State := State.start ParseInput.default

end Sys2Proof.Machine
end

