-- ==== Sys2Proof/Machine/Ops.lean ====
section
/-! DEFINITION. The shared operations: the memory image and its read port (20_memory.md R50 to R57), segment
resolution (R58), final-matrix recomputation (41_matrix.md R123), and raising an error (60_exceptions.md R163,
R164). The spec has no trap entry and no return from an error (R167, R168): `State.abort` is all an error does. -/

namespace Sys2Proof.Machine

/-- What a step or a command answers. -/
abbrev Answer := Host.Outcome State Fault Refusal

/-! ### The memory image -/

/-- The byte at an address of an image. -/
def imageByte : List Host.Cell → Nat → Byte
  | [], _ => Config.unlistedByte
  | (k, v) :: rest, a => if k = a then v else imageByte rest a

/-- An image with one byte placed, in canonical form. Only the caller's preparation of an image uses it: the
block has no write port (R22). -/
def setImageByte : List Host.Cell → Nat → Byte → List Host.Cell
  | [], a, b => if b = Config.unlistedByte then [] else [(a, b)]
  | (k, v) :: rest, a, b =>
    if a < k then if b = Config.unlistedByte then (k, v) :: rest else (a, b) :: (k, v) :: rest
    else if a = k then if b = Config.unlistedByte then rest else (a, b) :: rest
    else (k, v) :: setImageByte rest a b

/-- An image with bytes placed from an address on. -/
def setImageBytes : List Host.Cell → Nat → List Byte → List Host.Cell
  | image, _, [] => image
  | image, a, b :: rest => setImageBytes (setImageByte image a b) (a + 1) rest

/-- The canonical form of an image, above a bound: addresses strictly rising, no byte listed that an unlisted
address holds. -/
def imageWfFrom : Nat → List Host.Cell → Bool
  | _, [] => true
  | low, (k, v) :: rest => decide (low ≤ k) && (v != Config.unlistedByte) && imageWfFrom (k + 1) rest

/-- The canonical form of an image. -/
def Memory.wf (image : List Host.Cell) : Bool := imageWfFrom 0 image

/-- R54: the big-endian value of the `n` bytes at `a`, the sum over `k` of `byte[a+k] * 2^(8*(n-1-k))`. -/
def imageValue (image : List Host.Cell) (a : Nat) : Nat → Nat
  | 0 => 0
  | n + 1 => 256 * imageValue image a n + (imageByte image (a + n)).toNat

/-- `InImage(a, n)`: the `n` bytes at `a` are all in the image (R56). -/
abbrev State.inImage (s : State) (a : Nat) (n : Nat) : Prop := a + n ≤ s.input.memSize

/-- `MemRead(a, n)`, the read port (R9, R22, R56). -/
def State.memRead (s : State) (a : Nat) (n : Nat) : Except ErrorKind Nat :=
  if s.inImage a n then .ok (imageValue s.input.image a n) else .error .outOfRange

/-- The value of `MemReadU16(a)` where the read is in the image (R9). -/
def State.u16At (s : State) (a : Nat) : BitVec 16 := BitVec.ofNat 16 (imageValue s.input.image a 2)

/-- The value of `MemReadS16(a) = sext_16(MemRead(a, 2))` where the read is in the image (R8, R9). -/
def State.s16At (s : State) (a : Nat) : Int := (s.u16At a).toInt

/-- The value of `MemReadU32(a)` where the read is in the image (R9). -/
def State.u32At (s : State) (a : Nat) : Word := BitVec.ofNat 32 (imageValue s.input.image a 4)

/-! ### Segments -/

/-- `SEG[i]` for a 4-bit index: no index leaves the table (R32, C1). -/
def State.segBase (s : State) (i : BitVec 4) : BitVec 29 := s.seg[i.toNat]'i.isLt

/-- R58: `Resolve(a) = SEG[a[27:24]] + a[23:0]`; `a[31:28]` is ignored. -/
def State.resolve (s : State) (a : Word) : Nat := (s.segBase (field a 24 4)).toNat + (field a 0 24).toNat

/-! ### The executing command -/

/-- R25: the executing command's address, `pc` having been advanced past it (log 17). -/
def State.cmdAddr (s : State) : Nat := s.pc - 8

/-- The top of the modelview stack, `MS[MSP]` (R28, R33). -/
def State.top (s : State) : Slot Mtx := s.ms[s.msp]

/-- R123: `F <- FinalOf(MS[MSP], P, S)`. It never raises. -/
def State.recomputeFinal (s : State) : State :=
  { s with finalMtx := finalOf s.top s.projMtx s.screenMtx }

/-! ### Errors -/

/-- The numeric code of an error kind (R161, D21). -/
def ErrorKind.code : ErrorKind → Nat
  | .outOfRange => 1
  | .stackOverflow => 2
  | .stackUnderflow => 3
  | .unboundedExecution => 4
  | .uninitializedRead => 5
  | .invalidVertexIndex => 6

/-- The numeric code in an error record (R164). -/
def ErrorRecord.code (err : ErrorRecord) : Nat := err.kind.code

/-- R163: `status <- Faulted(err)`. The rest of the state is abandoned: it is the free value
`Config.abandonedState`, but for what no rule ever writes during a parse, the screen matrix (R31) and the
configuration (R21) (log 4). -/
def State.abort (s : State) (err : ErrorRecord) : State :=
  { Config.abandonedState s with
    status := .faulted err
    screenMtx := s.screenMtx
    input := s.input }

/-- `raise E` by the executing command: the record holds the command's own address and its opcode (R164). -/
def raise (kind : ErrorKind) (opcode : Byte) (s : State) : Answer :=
  .next (s.abort ⟨kind, s.cmdAddr, some opcode⟩)

/-- A command's answer: the state its pseudocode computed, or the error it raised first, nothing after which in
the pseudocode happens (R9, R163). -/
def finish (opcode : Byte) (s : State) : Except ErrorKind State → Answer
  | .ok t => .next t
  | .error kind => raise kind opcode s

end Sys2Proof.Machine
end

