-- ==== Sys2Proof/Machine/Cycle.lean ====
section
/-! DEFINITION. One step of the main loop around a command's effect (30_encoding.md R71, 60_exceptions.md R165,
R166), the caller's interface (10_state.md R23, 70_reset_and_hazards.md R182), and the placing of a command where
the next step fetches. -/

namespace Sys2Proof.Machine

/-- The configurations a parse may start with (R6, R182, D28). -/
def ParseInput.valid (inp : ParseInput) : Bool :=
  decide (1 ≤ inp.memSize ∧ inp.memSize ≤ 4294967296 ∧ 1 ≤ inp.width ∧ 1 ≤ inp.height ∧ 1 ≤ inp.maxSteps)

/-- The errors of a step before its command runs, in the order of R165: the step budget (R166), then the bounds
of the fetch (R71). Their records hold the address that was to be fetched, and no opcode (R164). -/
def State.fetchError? (s : State) : Option ErrorRecord :=
  if s.cmdCount = s.input.maxSteps then some ⟨.unboundedExecution, s.pc, none⟩
  else if s.inImage s.pc 8 then none
  else some ⟨.outOfRange, s.pc, none⟩

/-- The command at `pc` (R70, R71). -/
def State.fetched (s : State) : Instr := decode (s.u32At s.pc) (s.u32At (s.pc + 4))

/-- `pc <- pc + 8` (R71). -/
def State.advance (s : State) : State := { s with pc := s.pc + 8 }

/-- `CmdCount <- CmdCount + 1` (R71). -/
def State.count (s : State) : State := { s with cmdCount := s.cmdCount + 1 }

/-- What R71 does after `Execute`: a command that completes is counted, also one that ended the parse; one that
raised is not (R163). -/
def retire : Answer → Answer
  | .next t =>
    match t.status with
    | .faulted _ => .next t
    | .running => .next t.count
    | .done => .next t.count
  | .fault r => .fault r
  | .refused r => .refused r

/-- One step with a given `Execute`: the configuration is checked (R182), no step follows the end of a parse
(R37), and a running parse fetches, decodes, executes and counts (R71). -/
def stepWith (execute : Instr → State → Answer) (s : State) : Answer :=
  if s.input.valid then
    match s.status with
    | .done => .fault .parseEnded
    | .faulted _ => .fault .parseEnded
    | .running =>
      match s.fetchError? with
      | some err => .next (s.abort err)
      | none => retire (execute s.fetched s.advance)
  else .refused .invalidConfiguration

/-- The caller starts a parse: a configuration outside its domain is refused before any step (R23, R182). -/
def startParse (inp : ParseInput) : Except Refusal State :=
  if inp.valid then .ok (State.start inp) else .error .invalidConfiguration

/-- What the block presents to its caller (R23). -/
inductive Presentation where
  /-- Nothing yet: the parse runs. -/
  | pending
  /-- At `Done`: the output buffers and the counters. -/
  | results (vertices : List Vertex) (faces : List Face) (commands triangles vertexCount : Nat)
  /-- At `Faulted`: the error record and nothing else. -/
  | failure (err : ErrorRecord)
  deriving DecidableEq, Repr

/-- R23. -/
def State.presents (s : State) : Presentation :=
  match s.status with
  | .running => .pending
  | .done => .results s.vout s.fout s.cmdCount s.triCount s.vtxCount
  | .faulted err => .failure err

/-- The state with a command of the opcode table placed where the next step fetches it, running, its image
reaching past the command and its budget not used up, so that the next step runs the command (log 2). -/
def placeCommand (s : State) (nbits w : Nat) : State :=
  { s with
    status := .running
    input :=
      { s.input with
        image := setImageBytes s.input.image s.pc (tableBytes nbits w)
        memSize := max s.input.memSize (s.pc + 8)
        width := max s.input.width 1
        height := max s.input.height 1
        maxSteps := max s.input.maxSteps (s.cmdCount + 1) } }

end Sys2Proof.Machine
end

