-- ==== Sys2Proof/Machine/Control.lean ====
section
/-! DEFINITION. The control commands: branch/call and return (42_control.md). -/

namespace Sys2Proof.Machine

/-- R140's push: the already-advanced `pc` onto the jump stack, which overflows when it holds 16. -/
def State.pushReturn (s : State) : Except ErrorKind State :=
  if h : s.jsp.val < 16 then
    .ok { s with js := s.js.set s.jsp.val s.pc h, jsp := ⟨s.jsp.val + 1, by omega⟩ }
  else .error .stackOverflow

/-- `pc <- target`. -/
def State.jump (s : State) (target : Nat) : State := { s with pc := target }

/-- `G_DL`, branch/call with `nopush = 0`: a call (R140). -/
def execDl (addr : Word) (s : State) : Answer :=
  finish 0x06 s (s.pushReturn.map fun t => t.jump (s.resolve addr))

/-- `G_DL_NOPUSH`, branch/call with `nopush = 1`: a tail branch (R140). -/
def execDlNopush (addr : Word) (s : State) : Answer :=
  finish 0x06 s (.ok (s.jump (s.resolve addr)))

/-- R142: a return with a return address held pops it into `pc`; with none it ends the parse. The popped slot is
dead from then on, and keeps its content (R36). -/
def State.popReturn (s : State) : State :=
  if h : s.jsp.val = 0 then { s with status := .done }
  else { s with jsp := ⟨s.jsp.val - 1, by omega⟩, pc := s.js[s.jsp.val - 1]'(by omega) }

/-- `G_ENDDL`, return (R142). -/
def execEnddl (s : State) : Answer := finish 0xB8 s (.ok s.popReturn)

end Sys2Proof.Machine
end

