-- ==== Sys2Proof/Machine/Flags.lean ====
section
/-! DEFINITION. The block has no flags (10_state.md R27); these are the tests of draw triangle, whose results
are not kept: the depth reject and the trivial reject (40_geometry.md R105, R106). Every comparison with a NaN is
false (41_matrix.md R128). -/

namespace Sys2Proof.Machine

/-- R105: some vertex's depth exceeds `FarZ`. -/
def depthReject (A B C : Vertex) : Bool :=
  Config.farZ.lt A.z || Config.farZ.lt B.z || Config.farZ.lt C.z

/-- All three coordinates lie below 0. -/
def allBelowZero (a b c : Binary64) : Bool := a.lt .zero && b.lt .zero && c.lt .zero

/-- All three coordinates lie at or beyond a bound. -/
def allAtOrBeyond (bound : Nat) (a b c : Binary64) : Bool :=
  (Binary64.ofInt bound).le a && (Binary64.ofInt bound).le b && (Binary64.ofInt bound).le c

/-- R106: `Cull(A, B, C)` for a viewport `w` by `h`. -/
def cull (w h : Nat) (A B C : Vertex) : Bool :=
  allBelowZero A.x B.x C.x || allAtOrBeyond w A.x B.x C.x ||
    allBelowZero A.y B.y C.y || allAtOrBeyond h A.y B.y C.y

/-- Whether a triangle is suppressed, by its depth or by the trivial reject of the parse's viewport. -/
def State.suppressed (s : State) (A B C : Vertex) : Bool :=
  depthReject A B C || cull s.input.width s.input.height A B C

end Sys2Proof.Machine
end

