-- ==== Sys2Proof/Machine/Operands.lean ====
section
/-! DEFINITION. The operand forms: a triangle's index byte (40_geometry.md R104), a vertex record (R100 to
R102) and a matrix in memory (41_matrix.md R120). -/

namespace Sys2Proof.Machine

/-- `Vtx(f)` of R104: the vertex register that an index byte names, ten times its number. -/
def State.indexedVertex (s : State) (f : Byte) : Except ErrorKind Vertex :=
  if f.toNat % 10 ≠ 0 then .error .invalidVertexIndex
  else if h : f.toNat / 10 < 64 then
    match s.vr[f.toNat / 10] with
    | .unwritten => .error .uninitializedRead
    | .written v => .ok v
  else .error .invalidVertexIndex

/-- R100, R102: the vertex register content for the record at `a`: its three signed coordinates, at offsets 0, 2
and 4, transformed by `F` with the fourth component discarded, and the record's address. -/
def State.recordVertex (s : State) (F : Mtx) (a : Nat) : Vertex :=
  let x := Binary64.ofInt (s.s16At a)
  let y := Binary64.ofInt (s.s16At (a + 2))
  let z := Binary64.ofInt (s.s16At (a + 4))
  { x := xform x y z F 0, y := xform x y z F 1, z := xform x y z F 2, src := a }

/-- The loop of R103 over `n` records from record `i` on: each is checked, register index first and then the
whole record's bounds (R101), before its register is written. -/
def State.loadRecords (s : State) (F : Mtx) (base v0 : Nat) :
    Nat → Nat → Vector (Slot Vertex) 64 → Except ErrorKind (Vector (Slot Vertex) 64)
  | 0, _, vr => .ok vr
  | n + 1, i, vr =>
    if h : v0 + i < 64 then
      if s.inImage (base + 16 * i) 16 then
        s.loadRecords F base v0 n (i + 1)
          (vr.set (v0 + i) (.written (s.recordVertex F (base + 16 * i))) h)
      else .error .outOfRange
    else .error .invalidVertexIndex

/-- The signed 32-bit integer `hi:lo` of element `k` of the matrix at `a`: integer halves at `a + 2k`, fractional
halves at `a + 32 + 2k` (R120). -/
def State.fixedAt (s : State) (a : Nat) (k : Nat) : Int :=
  (s.u16At (a + 2 * k) ++ s.u16At (a + 32 + 2 * k)).toInt

/-- The matrix at `a` (R120): element `k` is row `k div 4`, column `k mod 4`, and its value `hi:lo / 65536`. -/
def State.mtxAt (s : State) (a : Nat) : Mtx :=
  Mtx.ofElements fun k => Binary64.ofFixed (s.fixedAt a k.val)

/-- `LoadMtx` of R120: the whole matrix is checked before it is read. -/
def State.loadMtx (s : State) (a : Nat) : Except ErrorKind Mtx :=
  if s.inImage a 64 then .ok (s.mtxAt a) else .error .outOfRange

end Sys2Proof.Machine
end

