-- ==== Sys2Proof/Machine/Geometry.lean ====
section
/-! DEFINITION. The geometry commands: load vertices and draw triangle (40_geometry.md). -/

namespace Sys2Proof.Machine

/-- R103's pseudocode up to its errors: `F` must be written, then the records load in ascending order. -/
def State.loadVertices (s : State) (nm1 v0 : BitVec 4) (addr : Word) : Except ErrorKind State :=
  match s.finalMtx with
  | .unwritten => .error .uninitializedRead
  | .written F =>
    match s.loadRecords F (s.resolve addr) v0.toNat (nm1.toNat + 1) 0 s.vr with
    | .ok vr => .ok { s with vr := vr }
    | .error kind => .error kind

/-- `G_VTX`, load vertices (R103). -/
def execVtx (nm1 v0 : BitVec 4) (addr : Word) (s : State) : Answer :=
  finish 0x04 s (s.loadVertices nm1 v0 addr)

/-- R107: three fresh entries of `VOUT`, a face tagged with the draw command's address, and the counters. -/
def State.emit (s : State) (A B C : Vertex) : State :=
  let n := s.vout.length
  { s with
    vout := s.vout ++ [A, B, C]
    fout := s.fout ++ [⟨n, n + 1, n + 2, s.cmdAddr⟩]
    triCount := s.triCount + 1
    vtxCount := s.vtxCount + 3 }

/-- R107 after its index checks: a suppressed triangle changes nothing. -/
def State.draw (s : State) (A B C : Vertex) : State :=
  if s.suppressed A B C then s else s.emit A B C

/-- R107's pseudocode up to its errors: the three index bytes are checked in order, each completely, before any
reject test (R165). -/
def State.drawTriangle (s : State) (ia ib ic : Byte) : Except ErrorKind State :=
  match s.indexedVertex ia, s.indexedVertex ib, s.indexedVertex ic with
  | .error kind, _, _ => .error kind
  | .ok _, .error kind, _ => .error kind
  | .ok _, .ok _, .error kind => .error kind
  | .ok A, .ok B, .ok C => .ok (s.draw A B C)

/-- `G_TRI1`, draw triangle (R107). -/
def execTri1 (ia ib ic : Byte) (s : State) : Answer :=
  finish 0xBF s (s.drawTriangle ia ib ic)

end Sys2Proof.Machine
end

