-- ==== Sys2Proof/Machine/MatrixOps.lean ====
section
/-! DEFINITION. The matrix commands: matrix op and pop matrix (41_matrix.md). -/

namespace Sys2Proof.Machine

/-- A matrix loaded into, or multiplied onto the left of, a target that a multiply needs written (R124, R125). -/
def combine (load : Bool) (M : Mtx) (target : Slot Mtx) : Except ErrorKind Mtx :=
  if load then .ok M
  else match target with
    | .unwritten => .error .uninitializedRead
    | .written T => .ok (matMul M T)

/-- R124, projection case: push is ignored. -/
def State.mtxProjection (s : State) (load : Bool) (addr : Word) : Except ErrorKind State := do
  let M ← s.loadMtx (s.resolve addr)
  let P ← combine load M s.projMtx
  return { s with projMtx := .written P }

/-- The stack index that R125 works at: one up for a push, which overflows at 15. The new slot is not filled. -/
def State.pushedMsp (s : State) (push : Bool) : Except ErrorKind (Fin 16) :=
  if push then
    if h : s.msp.val + 1 < 16 then .ok ⟨s.msp.val + 1, h⟩ else .error .stackOverflow
  else .ok s.msp

/-- R125, modelview case: the optional push, then load or multiply at the new top. -/
def State.mtxModelview (s : State) (push load : Bool) (addr : Word) : Except ErrorKind State := do
  let msp ← s.pushedMsp push
  let M ← s.loadMtx (s.resolve addr)
  let T ← combine load M s.ms[msp]
  return { s with msp := msp, ms := s.ms.set msp (.written T) }

/-- `G_MTX`, matrix op (R126): the case of R124 or R125, then `RecomputeFinal`. -/
def execMtx (push load proj : Bool) (addr : Word) (s : State) : Answer :=
  finish 0x01 s
    ((if proj then s.mtxProjection load addr else s.mtxModelview push load addr).map State.recomputeFinal)

/-- R127's pseudocode up to its error. -/
def State.popMsp (s : State) : Except ErrorKind State :=
  if s.msp.val = 0 then .error .stackUnderflow
  else .ok { s with msp := ⟨s.msp.val - 1, by omega⟩ }

/-- `G_POPMTX`, pop matrix (R127). -/
def execPopmtx (s : State) : Answer :=
  finish 0xBD s (s.popMsp.map State.recomputeFinal)

end Sys2Proof.Machine
end

