-- ==== Sys2Proof/Machine/SegmentNoop.lean ====
section
/-! DEFINITION. Set segment and the unrecognised commands (43_segment_and_other.md). -/

namespace Sys2Proof.Machine

/-- `SEG[i] <- b[28:0]` (R150): the base is masked to 29 bits, and not itself resolved (D11). -/
def State.setSegment (s : State) (i : BitVec 4) (b : Word) : State :=
  { s with seg := s.seg.set i.toNat (field b 0 29) i.isLt }

/-- `G_MW_SEGMENT`, set segment (R150). -/
def execMwSegment (seg : BitVec 4) (base : Word) (s : State) : Answer :=
  finish 0xBC s (.ok (s.setSegment seg base))

/-- `NOOP_MOVEWORD_OTHER` (R155): `pc` was already advanced. -/
def execNoopMovewordOther (_sub : Byte) (s : State) : Answer := .next s

/-- `NOOP_UNRECOGNIZED` (R155): `pc` was already advanced. -/
def execNoopUnrecognized (_opcode : Byte) (s : State) : Answer := .next s

end Sys2Proof.Machine
end

