-- ==== Sys2Proof/Machine/Dispatch.lean ====
section
/-! DEFINITION. `Execute` of 30_encoding.md R71: one arm per command. -/

namespace Sys2Proof.Machine

/-- The effect of a command on the state in which `pc` has been advanced past it (R25, R71). -/
def exec (i : Instr) (s : State) : Host.Outcome State Fault Refusal :=
  match i with
  | .mtx push load proj addr => Sys2Proof.Machine.execMtx push load proj addr s
  | .vtx nm1 v0 addr => Sys2Proof.Machine.execVtx nm1 v0 addr s
  | .dl addr => Sys2Proof.Machine.execDl addr s
  | .dlNopush addr => Sys2Proof.Machine.execDlNopush addr s
  | .enddl => Sys2Proof.Machine.execEnddl s
  | .mwSegment seg base => Sys2Proof.Machine.execMwSegment seg base s
  | .popmtx => Sys2Proof.Machine.execPopmtx s
  | .tri1 ia ib ic => Sys2Proof.Machine.execTri1 ia ib ic s
  | .noopMovewordOther sub => Sys2Proof.Machine.execNoopMovewordOther sub s
  | .noopUnrecognized opcode => Sys2Proof.Machine.execNoopUnrecognized opcode s

end Sys2Proof.Machine
end

