-- ==== Sys2Proof/Machine/Step.lean ====
section
/-! DEFINITION. The step of the machine. Everything it does stands in Cycle.lean and Dispatch.lean. -/

namespace Sys2Proof.Machine

/-- One step (30_encoding.md R71). -/
def step (s : State) : Host.Outcome State Fault Refusal := stepWith exec s

/-- `s` with a command of spec/opcode_table.json stored where `step` fetches its next one. -/
def State.withFetchWord (s : State) (nbits w : Nat) : State := placeCommand s nbits w

end Sys2Proof.Machine
end

