-- ==== Sys2Proof/Safety.lean ====
section
/-! DEFINITION. The terms claims are stated in: a state that has not failed, the invariant of a parse, runs of
commands and of steps, which command may raise which error, and states equal but for source addresses. -/

namespace Sys2Proof.Machine

/-- Whether the parse has ended with an error (R37). -/
def Status.isFaulted : Status → Bool
  | .running => false
  | .done => false
  | .faulted _ => true

/-- The parse has not failed: its state is not abandoned (R163). -/
abbrev State.live (s : State) : Prop := s.status.isFaulted = false

/-- Every triangle in `VOUT`, three entries at a time, passed the tests of R105 and R106 (R38). -/
def State.survivorsOnly (s : State) : Prop :=
  ∀ (k : Nat) (h : 3 * k + 2 < s.vout.length),
    s.suppressed (s.vout[3 * k]'(by omega)) (s.vout[3 * k + 1]'(by omega)) (s.vout[3 * k + 2]'h) = false

/-- What holds between the steps of a parse that has not failed. -/
structure State.Inv (s : State) : Prop where
  /-- R35: `F = FinalOf(MS[MSP], P, S)`. -/
  finalFresh : s.finalMtx = finalOf s.top s.projMtx s.screenMtx
  /-- R30: `TriCount` is the length of `FOUT`. -/
  triCount_eq : s.triCount = s.fout.length
  /-- R30: `VtxCount` is the length of `VOUT`. -/
  vtxCount_eq : s.vtxCount = s.vout.length
  /-- R30, R107: three vertices a face. -/
  vout_length : s.vout.length = 3 * s.fout.length
  /-- R107: the `k`-th face names the `k`-th three vertices. -/
  faces : ∀ (k : Nat) (h : k < s.fout.length),
    (s.fout[k]'h).a = 3 * k ∧ (s.fout[k]'h).b = 3 * k + 1 ∧ (s.fout[k]'h).c = 3 * k + 2
  /-- R38: at most one face a command. -/
  fout_bound : s.fout.length ≤ s.cmdCount
  /-- R166: at most `MaxSteps` commands. -/
  budget : s.cmdCount ≤ s.input.maxSteps
  /-- R20: `pc` is at most `2^32`. -/
  pc_bound : s.pc ≤ 4294967296
  /-- R36, R53: so is every live return address. -/
  js_bound : ∀ (k : Nat) (h : k < s.jsp.val), s.js[k]'(by omega) ≤ 4294967296

/-- Commands run one after another, each after the fetch's advance of `pc` (R71), stopping at an error of the
machine; it says nothing of where they are fetched from. -/
def runCommands : List Instr → State → Answer
  | [], s => .next s
  | i :: rest, s =>
    match exec i s.advance with
    | .next t => runCommands rest t
    | .fault r => .fault r
    | .refused r => .refused r

/-- Steps from one state to another, none of which executes a set segment of index `k`. -/
inductive StepsKeeping (k : BitVec 4) : State → State → Prop where
  | refl (s : State) : StepsKeeping k s s
  | tail {s t u : State} (before : StepsKeeping k s t) (last : step t = .next u)
      (other : ∀ b, t.fetched ≠ .mwSegment k b) : StepsKeeping k s u

/-- R162: the errors a command may raise. -/
def mayRaise : Instr → ErrorKind → Bool
  | .mtx _ _ _ _, .outOfRange => true
  | .mtx push _ proj _, .stackOverflow => push && !proj
  | .mtx _ load _ _, .uninitializedRead => !load
  | .vtx _ _ _, .outOfRange => true
  | .vtx _ _ _, .uninitializedRead => true
  | .dl _, .stackOverflow => true
  | .popmtx, .stackUnderflow => true
  | .tri1 _ _ _, .uninitializedRead => true
  | .tri1 _ _ _, .invalidVertexIndex => true
  | _, _ => false

/-- A command other than branch/call and return: it leaves `pc` to the fetch's advance (R26). -/
def isStraight : Instr → Bool
  | .dl _ => false
  | .dlNopush _ => false
  | .enddl => false
  | _ => true

/-- A vertex without its source address. -/
def Vertex.eraseSrc (v : Vertex) : Vertex := { v with src := 0 }

/-- A face without its source address. -/
def Face.eraseSrc (f : Face) : Face := { f with src := 0 }

/-- A vertex register without its source address. -/
def eraseSlotSrc : Slot Vertex → Slot Vertex
  | .unwritten => .unwritten
  | .written v => .written v.eraseSrc

/-- A state without the source addresses of its vertex registers and outputs (R24, R174). -/
def State.eraseSrc (s : State) : State :=
  { s with
    vr := s.vr.map eraseSlotSrc
    vout := s.vout.map Vertex.eraseSrc
    fout := s.fout.map Face.eraseSrc }

/-- The error that the check of one index byte finds (R104), the register index being in range for every byte. -/
def State.indexError? (s : State) (f : Byte) : Option ErrorKind :=
  if f.toNat % 10 ≠ 0 then some .invalidVertexIndex
  else if s.vr[f.toNat / 10]'(by omega) = .unwritten then some .uninitializedRead
  else none

/-- A binary64 number below a threshold given in units of 2^-1074; no NaN is (R128). -/
def below (v : Binary64) (k : Int) : Prop := ∃ m, v.key? = some m ∧ m < k

/-- A binary64 number at or above a threshold given in units of 2^-1074; no NaN is (R128). -/
def atLeast (v : Binary64) (k : Int) : Prop := ∃ m, v.key? = some m ∧ k ≤ m

/-- A binary64 number above a threshold given in units of 2^-1074; no NaN is (R128). -/
def above (v : Binary64) (k : Int) : Prop := ∃ m, v.key? = some m ∧ k < m

/-- Whether a number is finite. -/
def isFiniteNum : Binary64 → Bool
  | .nan => false
  | .inf _ => false
  | .finite _ _ _ => true

/-- An exact value, in units of 2^-2148, that some finite binary64 number has: the exact product of two numbers given
in units of 2^-1074 is a whole number of these. -/
def representable (q : Int) : Prop := ∃ c k, isFiniteNum c = true ∧ c.key? = some k ∧ k * 2 ^ 1074 = q

/-- The command raises: the parse ends with the record of R164 for it (R163). -/
def raises (i : Instr) (s : State) (kind : ErrorKind) (opcode : Byte) : Prop :=
  ∃ t, exec i s = .next t ∧ t.status = .faulted ⟨kind, s.pc - 8, some opcode⟩

/-- The matrix in memory at `a` (R120): element `k = 4 * r + c` is the signed integer of its two halves, over
65536. -/
def holdsMtx (s : State) (a : Nat) (M : Mtx) : Prop :=
  ∀ r c : Fin 4, M[r][c] =
    Binary64.ofFixed
      (s.u16At (a + 2 * (4 * r.val + c.val)) ++ s.u16At (a + 32 + 2 * (4 * r.val + c.val))).toInt

/-- The identity matrix. -/
def identityMtx : Mtx := Mtx.ofElements fun k => if k.val % 5 = 0 then .one else .zero

/-! ### Parts of the state that a frame keeps -/

/-- The vertex registers and the outputs with their counters. -/
def State.sameGeometry (s t : State) : Prop :=
  t.vr = s.vr ∧ t.vout = s.vout ∧ t.fout = s.fout ∧ t.triCount = s.triCount ∧ t.vtxCount = s.vtxCount

/-- The matrix stack, the projection matrix and the final matrix. -/
def State.sameMatrices (s t : State) : Prop :=
  t.ms = s.ms ∧ t.msp = s.msp ∧ t.projMtx = s.projMtx ∧ t.finalMtx = s.finalMtx

/-- The program counter, the jump stack and the status. -/
def State.sameControl (s t : State) : Prop :=
  t.pc = s.pc ∧ t.js = s.js ∧ t.jsp = s.jsp ∧ t.status = s.status

/-- The segment table. -/
def State.sameSegments (s t : State) : Prop := t.seg = s.seg

/-- The screen matrix, the command counter, the configuration, and every byte of the image. -/
def State.sameParse (s t : State) : Prop :=
  t.screenMtx = s.screenMtx ∧ t.cmdCount = s.cmdCount ∧ t.input = s.input ∧
    ∀ a, imageByte t.input.image a = imageByte s.input.image a

/-- Two states that differ at most in dead jump-stack slots (R36). -/
def State.agreeLive (s t : State) : Prop :=
  t = { s with js := t.js } ∧ ∀ (k : Nat) (h : k < s.jsp.val), t.js[k]'(by omega) = s.js[k]'(by omega)

end Sys2Proof.Machine
end

