-- ==== Sys2Proof/Certificates/Slice0/Obligations.lean ====
section
/-! DEFINITION. The statements for the provers. A docstring names the rule a statement formalises; where a clause
rests on a decision the spec marks as its own (92_eei_decisions.md D<n>) or on a choice of the model (log <n>), it
says so. -/

section

open Sys2Proof Sys2Proof.Machine

/-! ### Encoding -/

/-- R72 to R79: decoding the words of a well-formed command gives the command back. The field positions are the
spec's decision D2. -/
def Obligations.DecodeEncodeRoundTrip : Prop :=
  ∀ i : Instr, i.wf = true → decode (encode i).1 (encode i).2 = i

/-- R54, R70: so do the eight bytes of the command at the front of any bytes, the first byte the most
significant. -/
def Obligations.DecodeBytesRoundTrip : Prop :=
  ∀ (i : Instr) (rest : List Byte), i.wf = true → decodeBytes (encodeBytes i ++ rest) = .ok (i, rest)

/-- R72, R80: decode answers a well-formed command for every pair of words. -/
def Obligations.DecodeIsWellFormed : Prop :=
  ∀ w0 w1 : Word, (decode w0 w1).wf = true

/-- The note of spec/opcode_table.json: rows are tried in priority order and the first that matches selects the
case; decode selects that row (D2). -/
def Obligations.DecodeSelectsFirstTableRow : Prop :=
  ∀ w0 w1 : Word, (firstRow (commandOf w0 w1)).map TableRow.mnemonic = some (decode w0 w1).mnemonic

/-- R80, R155: an unknown opcode, and a `0xBC` with another sub-opcode than `0x06`, decode as no-ops. -/
def Obligations.UnrecognisedDecodesAsNoop : Prop :=
  ∀ w0 w1 : Word,
    (field w0 24 8 ∉ recognisedOpcodes → decode w0 w1 = .noopUnrecognized (field w0 24 8)) ∧
    (field w0 24 8 = 0xBC → field w0 0 8 ≠ 0x06 → decode w0 w1 = .noopMovewordOther (field w0 0 8))

/-- R73 to R80, I9: the fields a layout calls ignored are don't-care: commands that agree on the fields that are
read decode alike (which fields are ignored: D2, D12, D23 to D26, D32, D33). -/
def Obligations.IgnoredFieldsAreDontCare : Prop :=
  ∀ v0 v1 w0 w1 : Word, field v0 24 8 = field w0 24 8 →
    (field w0 24 8 = 0x01 → field v0 16 3 = field w0 16 3 → v1 = w1 → decode v0 v1 = decode w0 w1) ∧
    (field w0 24 8 = 0x04 → field v0 16 8 = field w0 16 8 → v1 = w1 → decode v0 v1 = decode w0 w1) ∧
    (field w0 24 8 = 0x06 → bit v0 16 = bit w0 16 → v1 = w1 → decode v0 v1 = decode w0 w1) ∧
    (field w0 24 8 = 0xB8 → decode v0 v1 = decode w0 w1) ∧
    (field w0 24 8 = 0xBC → field v0 0 8 = 0x06 → field w0 0 8 = 0x06 → field v0 10 4 = field w0 10 4 →
      v1 = w1 → decode v0 v1 = decode w0 w1) ∧
    (field w0 24 8 = 0xBD → decode v0 v1 = decode w0 w1) ∧
    (field w0 24 8 = 0xBF → field v1 0 24 = field w1 0 24 → decode v0 v1 = decode w0 w1)

/-- R82, and vectors V-E4 to V-E15: words written out bit by bit decode to the commands they stand for (D2). -/
def Obligations.WrittenOutWordsDecode : Prop :=
  decode 0x04200030 0x00000300 = .vtx 2 0 0x00000300 ∧
  decode 0xBF000000 0x00000A14 = .tri1 0 10 20 ∧
  decode 0x01030040 0x00000200 = .mtx false true true 0x00000200 ∧
  decode 0x01040040 0x06000040 = .mtx true false false 0x06000040 ∧
  decode 0x06FEFFFF 0x00000100 = .dl 0x00000100 ∧
  decode 0x06010000 0x06000000 = .dlNopush 0x06000000 ∧
  decode 0xBC001806 0x00000400 = .mwSegment 6 0x00000400 ∧
  decode 0xBC001802 0x00000400 = .noopMovewordOther 0x02 ∧
  decode 0xB8FFFFFF 0xFFFFFFFF = .enddl ∧
  decode 0xBDFFFFFF 0x00000001 = .popmtx ∧
  decode 0x00000000 0x00000000 = .noopUnrecognized 0x00

/-! ### Reset and the step -/

/-- R180: the state at the start of a parse, for every configuration; and R23, R182: a parse of every configuration in
the domains of R6 and R182 starts, in that state. That the vertex registers, the matrix slots and the projection start
`Unwritten` and that `MSP` starts at 0 is the spec's decision D8, the screen matrix's formula its decision D6, the
viewport's and the budget's domain its decision D28. -/
def Obligations.ParseStartState : Prop :=
  ∀ inp : ParseInput,
    (1 ≤ inp.memSize → inp.memSize ≤ 2 ^ 32 → 1 ≤ inp.width → 1 ≤ inp.height → 1 ≤ inp.maxSteps →
      inp.valid = true ∧ startParse inp = .ok (State.start inp)) ∧
    (State.start inp).pc = inp.startAddr ∧
    (∀ k : Fin 64, (State.start inp).vr[k] = .unwritten) ∧
    (∀ k : Fin 16, (State.start inp).seg[k] = 0) ∧
    (∀ k : Fin 16, (State.start inp).ms[k] = .unwritten) ∧
    (State.start inp).msp = 0 ∧
    (State.start inp).projMtx = .unwritten ∧
    (State.start inp).finalMtx = .unwritten ∧
    (State.start inp).screenMtx = screenMatrix inp.width inp.height ∧
    (State.start inp).jsp = 0 ∧
    (State.start inp).vout = [] ∧
    (State.start inp).fout = [] ∧
    (State.start inp).cmdCount = 0 ∧
    (State.start inp).triCount = 0 ∧
    (State.start inp).vtxCount = 0 ∧
    (State.start inp).status = .running ∧
    (State.start inp).input = inp

/-- R71: when the bytes at `pc` decode to a command, a step is that command's effect on the state with `pc`
advanced by 8, counted when it completes (D30) and not when it raises (R163). -/
def Obligations.StepRunsDecodedCommand : Prop :=
  ∀ (s : State) (i : Instr), s.input.valid = true → s.status = .running → s.cmdCount ≠ s.input.maxSteps →
    s.pc + 8 ≤ s.input.memSize →
    decodeBytes ((List.range 8).map fun k => imageByte s.input.image (s.pc + k)) = .ok (i, []) →
    step s =
      match exec i { s with pc := s.pc + 8 } with
      | .next t => .next (if t.status.isFaulted then t else { t with cmdCount := t.cmdCount + 1 })
      | .fault r => .fault r
      | .refused r => .refused r

/-- R166, R164: when `MaxSteps` commands have run, the step raises `UnboundedExecution` with the address of the
command that would have been fetched, and no opcode, whatever stands there (checked before the fetch: D19, D22). -/
def Obligations.BudgetEndsParse : Prop :=
  ∀ s : State, s.input.valid = true → s.status = .running → s.cmdCount = s.input.maxSteps →
    ∃ t, step s = .next t ∧ t.status = .faulted ⟨.unboundedExecution, s.pc, none⟩

/-- R71, R164: within the budget, a fetch that reaches past the image raises `OutOfRange` with the fetched
address and no opcode (the record's content: D20). -/
def Obligations.FetchPastImageRaises : Prop :=
  ∀ s : State, s.input.valid = true → s.status = .running → s.cmdCount ≠ s.input.maxSteps →
    s.input.memSize < s.pc + 8 →
    ∃ t, step s = .next t ∧ t.status = .faulted ⟨.outOfRange, s.pc, none⟩

/-- R182, D28: a configuration with a viewport side or a budget below 1 is refused before the parse starts, and no
step is defined for it; so is a `MemSize` outside the domain that R6 gives it (log 6). -/
def Obligations.InvalidConfigurationRefused : Prop :=
  ∀ s : State,
    (s.input.width = 0 ∨ s.input.height = 0 ∨ s.input.maxSteps = 0 ∨ s.input.memSize = 0 ∨
      4294967296 < s.input.memSize) →
    startParse s.input = .error .invalidConfiguration ∧ step s = .refused .invalidConfiguration

/-- 93_implementation_defined.md, end of part 1: no state of the block is ever stuck: every step of a running
parse moves, ends the parse or raises. -/
def Obligations.RunningStepAnswers : Prop :=
  ∀ s : State, s.input.valid = true → s.status = .running → ∃ t, step s = .next t

/-- R143: every parse ends after at most `MaxSteps + 1` steps, counted from any state within the budget. -/
def Obligations.ParseEndsWithinBudget : Prop :=
  ∀ s : State, s.input.valid = true → s.status = .running → s.cmdCount ≤ s.input.maxSteps →
    ∃ (k : Nat) (t : State), k ≤ s.input.maxSteps - s.cmdCount + 1 ∧
      core.run k s = .next t ∧ t.status ≠ .running

/-- R163, R37: after an error no later step runs and the caller is presented the error record alone; that a step
after the end of a parse stops under a name of its own is log 5. -/
def Obligations.AbortIsFinal : Prop :=
  ∀ (s t : State) (err : ErrorRecord), step s = .next t → t.status = .faulted err →
    step t = .fault .parseEnded ∧ t.presents = .failure err

/-- R37, R23: no step follows `Done`, and the caller is then presented the outputs and the counters (log 5). -/
def Obligations.DoneIsFinal : Prop :=
  ∀ s t : State, step s = .next t → t.status = .done →
    step t = .fault .parseEnded ∧ t.presents = .results t.vout t.fout t.cmdCount t.triCount t.vtxCount

/-- R21, R31, R57: no step changes the configuration, the image or the screen matrix. That a step which raises keeps
them too is the model's clause, not R163's, which abandons the rest of the state: log 4 deduces it from the same three
rules. That the configuration is a field of State is log 1. -/
def Obligations.StepKeepsConfiguration : Prop :=
  ∀ s t : State, step s = .next t →
    t.input = s.input ∧ t.screenMtx = s.screenMtx ∧
      ∀ a, imageByte t.input.image a = imageByte s.input.image a

/-- R30, R71: a step that does not raise counts one command, the one that ends the parse included (D30). -/
def Obligations.CompletedCommandCounted : Prop :=
  ∀ s t : State, step s = .next t → t.live → t.cmdCount = s.cmdCount + 1

/-- R26, R71: a step that executes no branch/call and no return, and does not raise, advances `pc` by exactly 8,
from any address, aligned or not, and stays within the image. -/
def Obligations.StraightStepAdvancesPc : Prop :=
  ∀ s t : State, step s = .next t → t.live → isStraight s.fetched = true →
    t.pc = s.pc + 8 ∧ t.pc ≤ s.input.memSize

/-! ### Memory and segments -/

/-- R54 to R56: the read port answers the big-endian value of the bytes at any address, aligned or not, and
`OutOfRange` where they are not all in the image. -/
def Obligations.MemReadBigEndian : Prop :=
  ∀ (s : State) (a : Nat),
    (a + 2 ≤ s.input.memSize →
      s.memRead a 2 = .ok ((imageByte s.input.image a).toNat * 256 + (imageByte s.input.image (a + 1)).toNat)) ∧
    (a + 4 ≤ s.input.memSize →
      s.memRead a 4 = .ok ((s.u16At a).toNat * 65536 + (s.u16At (a + 2)).toNat) ∧
      (s.u32At a).toNat = (s.u16At a).toNat * 65536 + (s.u16At (a + 2)).toNat) ∧
    (∀ n, s.input.memSize < a + n → s.memRead a n = .error .outOfRange)

/-- R58, R53: a segmented address resolves to the base that `a[27:24]` selects plus `a[23:0]`, below `2^30`;
`a[31:28]` is ignored (bit positions: D10). -/
def Obligations.SegmentedAddressResolves : Prop :=
  ∀ (s : State) (a : Word),
    (∀ k : Fin 16, k.val = a.toNat / 16777216 % 16 → s.resolve a = s.seg[k].toNat + a.toNat % 16777216) ∧
    s.resolve a < 1073741824 ∧
    s.resolve a = s.resolve (a &&& 0x0FFFFFFF)

/-- R150: set segment writes the masked base into the selected entry and nothing else (not resolved: D11). -/
def Obligations.SetSegmentWritesMaskedBase : Prop :=
  ∀ (s : State) (seg : BitVec 4) (base : Word),
    exec (.mwSegment seg base) s =
      .next { s with seg := Vector.ofFn fun k : Fin 16 =>
        if k.val = seg.toNat then BitVec.ofNat 29 (base.toNat % 536870912) else s.seg[k] }

/-- R151: after a set segment of index `S` to base `B`, an address of segment `S` resolves to the 29-bit base plus
its offset, through any steps that execute no set segment of `S`. -/
def Obligations.SegmentBaseStaysInForce : Prop :=
  ∀ (s t u : State) (seg : BitVec 4) (base a : Word),
    exec (.mwSegment seg base) s = .next t → StepsKeeping seg t u → u.live → field a 24 4 = seg →
    u.resolve a = base.toNat % 536870912 + a.toNat % 16777216

/-- The rest of what R150 and R187 say of set segment: every other entry, `pc`, the jump stack, the matrices, the
vertex registers, the outputs and every byte of memory stay. -/
def Obligations.SetSegmentFrame : Prop :=
  ∀ (s t : State) (seg : BitVec 4) (base : Word), exec (.mwSegment seg base) s = .next t →
    (∀ k : Fin 16, k.val ≠ seg.toNat → t.seg[k] = s.seg[k]) ∧
    s.sameGeometry t ∧ s.sameMatrices t ∧ s.sameControl t ∧ s.sameParse t

/-- R155: an unrecognised command, by the bits of its first word, changes nothing but the fetch's `pc` advance and
`CmdCount`. -/
def Obligations.NoopOnlyAdvances : Prop :=
  (∀ (s : State) (sub : Byte), exec (.noopMovewordOther sub) s = .next s) ∧
  (∀ (s : State) (opcode : Byte), exec (.noopUnrecognized opcode) s = .next s) ∧
  (∀ s : State, s.input.valid = true → s.status = .running → s.cmdCount ≠ s.input.maxSteps →
    s.pc + 8 ≤ s.input.memSize →
    (field (s.u32At s.pc) 24 8 ∉ recognisedOpcodes ∨
      (field (s.u32At s.pc) 24 8 = 0xBC ∧ field (s.u32At s.pc) 0 8 ≠ 0x06)) →
    step s = .next { s with pc := s.pc + 8, cmdCount := s.cmdCount + 1 })

/-! ### Geometry -/

/-- R103, R100, R102, R122: with the final matrix written and every record in the image, load vertices writes register
`v0 + i` with the first three of R122's sums over record `i`'s coordinates and with the record's address, for each of
the `nm1 + 1` records, and nothing else (record layout: D14; targets: D26; arithmetic: D3). -/
def Obligations.LoadVerticesWritesRegisters : Prop :=
  ∀ (s : State) (nm1 v0 : BitVec 4) (addr : Word) (F : Mtx), s.finalMtx = .written F →
    s.resolve addr + 16 * (nm1.toNat + 1) ≤ s.input.memSize →
    exec (.vtx nm1 v0 addr) s =
      .next { s with vr := Vector.ofFn fun k : Fin 64 =>
        if v0.toNat ≤ k.val ∧ k.val < v0.toNat + (nm1.toNat + 1) then
          let a := s.resolve addr + 16 * (k.val - v0.toNat)
          let x := Binary64.ofInt (s.u16At a).toInt
          let y := Binary64.ofInt (s.u16At (a + 2)).toInt
          let z := Binary64.ofInt (s.u16At (a + 4)).toInt
          let component := fun j : Fin 4 =>
            (((x.mul F[0][j]).add (y.mul F[1][j])).add (z.mul F[2][j])).add F[3][j]
          Slot.written ⟨component 0, component 1, component 2, a⟩
        else s.vr[k] }

/-- R103, R101, R165: load vertices raises `UninitializedRead` while the final matrix is `Unwritten` (D8), and
otherwise `OutOfRange` when some record is not wholly inside the image (D14). -/
def Obligations.LoadVerticesErrors : Prop :=
  ∀ (s : State) (nm1 v0 : BitVec 4) (addr : Word),
    (s.finalMtx = .unwritten → raises (.vtx nm1 v0 addr) s .uninitializedRead 0x04) ∧
    (s.finalMtx ≠ .unwritten → s.input.memSize < s.resolve addr + 16 * (nm1.toNat + 1) →
      raises (.vtx nm1 v0 addr) s .outOfRange 0x04)

/-- R103, R24: when load vertices completes it leaves every register outside its targets, and all else, as it
was. -/
def Obligations.LoadVerticesFrame : Prop :=
  ∀ (s t : State) (nm1 v0 : BitVec 4) (addr : Word), exec (.vtx nm1 v0 addr) s = .next t → t.live →
    (∀ k : Fin 64, ¬ (v0.toNat ≤ k.val ∧ k.val ≤ v0.toNat + nm1.toNat) → t.vr[k] = s.vr[k]) ∧
    t.vout = s.vout ∧ t.fout = s.fout ∧ t.triCount = s.triCount ∧ t.vtxCount = s.vtxCount ∧
    s.sameMatrices t ∧ s.sameControl t ∧ s.sameSegments t ∧ s.sameParse t

/-- R107, R104: a triangle of three written registers that passes both tests appends its vertices in order and a
face tagged with the command's own address, and counts them (fresh entries each time: D18). -/
def Obligations.TriangleEmits : Prop :=
  ∀ (s : State) (a b c : Fin 26) (A B C : Vertex),
    s.vr[a.val] = .written A → s.vr[b.val] = .written B → s.vr[c.val] = .written C →
    depthReject A B C = false → cull s.input.width s.input.height A B C = false →
    exec (.tri1 (BitVec.ofNat 8 (10 * a.val)) (BitVec.ofNat 8 (10 * b.val)) (BitVec.ofNat 8 (10 * c.val))) s =
      .next { s with
        vout := s.vout ++ [A, B, C]
        fout := s.fout ++ [⟨s.vout.length, s.vout.length + 1, s.vout.length + 2, s.pc - 8⟩]
        triCount := s.triCount + 1
        vtxCount := s.vtxCount + 3 }

/-- R105 to R107: a triangle of three written registers that fails a test is not emitted, and nothing changes: it
is no error. -/
def Obligations.TriangleSuppressed : Prop :=
  ∀ (s : State) (a b c : Fin 26) (A B C : Vertex),
    s.vr[a.val] = .written A → s.vr[b.val] = .written B → s.vr[c.val] = .written C →
    (depthReject A B C = true ∨ cull s.input.width s.input.height A B C = true) →
    exec (.tri1 (BitVec.ofNat 8 (10 * a.val)) (BitVec.ofNat 8 (10 * b.val)) (BitVec.ofNat 8 (10 * c.val))) s =
      .next s

/-- R104, R107, R165: the first index byte, in the order `ia`, `ib`, `ic`, that is not a multiple of 10 raises
`InvalidVertexIndex` (D15), or that names an `Unwritten` register raises `UninitializedRead` (D8), before any
reject test. -/
def Obligations.TriangleIndexErrors : Prop :=
  ∀ (s : State) (ia ib ic : Byte) (kind : ErrorKind),
    ((s.indexError? ia).or ((s.indexError? ib).or (s.indexError? ic))) = some kind →
    raises (.tri1 ia ib ic) s kind 0xBF

/-- R107, R24: a draw triangle that does not raise leaves the vertex registers and everything but the outputs and
their counters as it was, and adds none or three vertices at the end of `VOUT`. -/
def Obligations.TriangleFrame : Prop :=
  ∀ (s t : State) (ia ib ic : Byte), exec (.tri1 ia ib ic) s = .next t → t.live →
    t.vr = s.vr ∧ s.sameMatrices t ∧ s.sameControl t ∧ s.sameSegments t ∧ s.sameParse t ∧
    (∃ new, t.vout = s.vout ++ new ∧ (new.length = 0 ∨ new.length = 3)) ∧
    (∃ new, t.fout = s.fout ++ new ∧ new.length ≤ 1)

/-- R105, R128: a triangle is depth-rejected exactly when some depth is a number above 1: 1 itself, any depth below,
and a NaN pass. -/
def Obligations.DepthRejectMeansAboveOne : Prop :=
  ∀ A B C : Vertex, depthReject A B C = true ↔
    (above A.z (2 ^ 1074) ∨ above B.z (2 ^ 1074) ∨ above C.z (2 ^ 1074))

/-- R106, R128: a triangle is culled exactly when all three coordinates of one axis are numbers on the same side of
the viewport (D16), a coordinate at the width or height counting as beyond and one at 0 as inside. Stated for a
viewport that binary64 holds exactly (log 10). -/
def Obligations.CullMeansSameSideOutside : Prop :=
  ∀ (w h : Nat) (A B C : Vertex), w ≤ 2 ^ 53 → h ≤ 2 ^ 53 →
    (cull w h A B C = true ↔
      (below A.x 0 ∧ below B.x 0 ∧ below C.x 0) ∨
      (atLeast A.x (w * 2 ^ 1074) ∧ atLeast B.x (w * 2 ^ 1074) ∧ atLeast C.x (w * 2 ^ 1074)) ∨
      (below A.y 0 ∧ below B.y 0 ∧ below C.y 0) ∨
      (atLeast A.y (h * 2 ^ 1074) ∧ atLeast B.y (h * 2 ^ 1074) ∧ atLeast C.y (h * 2 ^ 1074)))

/-! ### Arithmetic -/

/-- R120: the reconstruction of an element is exact: `hi:lo / 65536`, no rounding. -/
def Obligations.FixedPointElementExact : Prop :=
  ∀ hi lo : BitVec 16, (Binary64.ofFixed (hi ++ lo).toInt).key? = some ((hi.toInt * 65536 + lo.toNat) * 2 ^ 1058)

/-- R102: a coordinate is converted exactly from its signed integer. -/
def Obligations.CoordinateConversionExact : Prop :=
  ∀ v : BitVec 16, (Binary64.ofInt v.toInt).key? = some (v.toInt * 2 ^ 1074)

/-- R121, R128, D3: the sum of two finite numbers is the binary64 number nearest to the exact sum, an infinity standing
at 2^1024 among the candidates, a tie going to the number whose last place is even; in particular an exactly
representable sum is exact, and a sum past the range is an infinity. Then the sums IEEE 754 gives by cases: an exact
zero, a NaN operand, infinite operands (the standard's details: log 9; one NaN: log 8). -/
def Obligations.AddRoundsToNearestEven : Prop :=
  (∀ (a b c : Binary64) (x y k : Int), isFiniteNum a = true → isFiniteNum b = true →
    a.key? = some x → b.key? = some y → c.key? = some k →
    ∃ r, (a.add b).key? = some r ∧ |r - (x + y)| ≤ |k - (x + y)| ∧
      ∀ neg e f, a.add b = .finite neg e f → k ≠ r → |k - (x + y)| = |r - (x + y)| → f.toNat % 2 = 0) ∧
  (∀ (s t : Bool) (e e' : Fin 2047) (f f' : BitVec 52) (x y : Int),
    (Binary64.finite s e f).key? = some x → (Binary64.finite t e' f').key? = some y → x + y = 0 →
    (Binary64.finite s e f).add (.finite t e' f') = .finite (s && t) 0 0) ∧
  (∀ a : Binary64, Binary64.nan.add a = .nan ∧ a.add .nan = .nan) ∧
  (∀ s t : Bool, (Binary64.inf s).add (.inf t) = if s = t then .inf s else .nan) ∧
  (∀ (s : Bool) (b : Binary64), isFiniteNum b = true → (Binary64.inf s).add b = .inf s ∧ b.add (.inf s) = .inf s)

/-- R121, R128, D3: the product of two finite numbers is the binary64 number nearest to the exact product, an infinity
standing at 2^1024 among the candidates, a tie going to the number whose last place is even. Then the products IEEE 754
gives by cases: the sign of a product, a NaN operand, infinite operands, `inf * 0` (the standard's details: log 9; one
NaN: log 8). -/
def Obligations.MulRoundsToNearestEven : Prop :=
  (∀ (a b c : Binary64) (x y k : Int), isFiniteNum a = true → isFiniteNum b = true →
    a.key? = some x → b.key? = some y → c.key? = some k →
    ∃ r, (a.mul b).key? = some r ∧ |r * 2 ^ 1074 - x * y| ≤ |k * 2 ^ 1074 - x * y| ∧
      ∀ neg e f, a.mul b = .finite neg e f → k ≠ r →
        |k * 2 ^ 1074 - x * y| = |r * 2 ^ 1074 - x * y| → f.toNat % 2 = 0) ∧
  (∀ (s t : Bool) (e e' : Fin 2047) (f f' : BitVec 52),
    (Binary64.finite s e f).mul (.finite t e' f') = .inf (s ^^ t) ∨
      ∃ e'' f'', (Binary64.finite s e f).mul (.finite t e' f') = .finite (s ^^ t) e'' f'') ∧
  (∀ a : Binary64, Binary64.nan.mul a = .nan ∧ a.mul .nan = .nan) ∧
  (∀ s t : Bool, (Binary64.inf s).mul (.inf t) = .inf (s ^^ t)) ∧
  (∀ (s t : Bool) (e : Fin 2047) (f : BitVec 52) (x : Int), (Binary64.finite t e f).key? = some x →
    (x = 0 → (Binary64.inf s).mul (.finite t e f) = .nan ∧ (Binary64.finite t e f).mul (.inf s) = .nan) ∧
    (x ≠ 0 → (Binary64.inf s).mul (.finite t e f) = .inf (s ^^ t) ∧
      (Binary64.finite t e f).mul (.inf s) = .inf (t ^^ s)))

/-- R121: an element of a product is the sum R121 writes, in its order; and where every product and partial sum is
exactly representable, it is the exact rational sum of products (the spec's own inference). Arithmetic: D3. -/
def Obligations.MatrixProductFollowsRowsAndColumns : Prop :=
  ∀ (A B : Mtx) (i j : Fin 4),
    (matMul A B)[i][j] =
      (((A[i][0].mul B[0][j]).add (A[i][1].mul B[1][j])).add (A[i][2].mul B[2][j])).add (A[i][3].mul B[3][j]) ∧
    ∀ a b : Fin 4 → Int,
      (∀ k : Fin 4, isFiniteNum A[i][k] = true ∧ A[i][k].key? = some (a k)) →
      (∀ k : Fin 4, isFiniteNum B[k][j] = true ∧ B[k][j].key? = some (b k)) →
      (∀ k : Fin 4, representable (a k * b k)) →
      representable (a 0 * b 0 + a 1 * b 1) →
      representable (a 0 * b 0 + a 1 * b 1 + a 2 * b 2) →
      representable (a 0 * b 0 + a 1 * b 1 + a 2 * b 2 + a 3 * b 3) →
      ∃ r, (matMul A B)[i][j].key? = some r ∧
        r * 2 ^ 1074 = a 0 * b 0 + a 1 * b 1 + a 2 * b 2 + a 3 * b 3

/-- R31, D6: for a viewport below `2^52` every element of the screen matrix is exact: twice it is the integer shown. -/
def Obligations.ScreenMatrixExact : Prop :=
  ∀ (w h : Nat) (r c : Fin 4), w < 2 ^ 52 → h < 2 ^ 52 →
    (screenMatrix w h)[r][c].key? =
      some ((#v[#v[(w : Int), 0, 0, 0], #v[0, -(h : Int), 0, 0], #v[0, 0, 2, 0], #v[(w : Int), h, 0, 2]] :
        Vector (Vector Int 4) 4)[r][c] * 2 ^ 1073)

/-- R126, C11: a multiply by the identity, on either side, leaves a matrix of finite elements unchanged exactly, up to
the sign of a zero. That an element is R121's sum over a row of the left factor and a column of the right one is
MatrixProductFollowsRowsAndColumns. -/
def Obligations.IdentityMultiplyExact : Prop :=
  ∀ (M : Mtx), (∀ r c : Fin 4, isFiniteNum M[r][c] = true) →
    ∀ r c : Fin 4, (matMul identityMtx M)[r][c].key? = M[r][c].key? ∧ (matMul M identityMtx)[r][c].key? = M[r][c].key?

/-- R128: no overflow is possible within one load followed by the recomputation of `F`: with matrices as memory
holds them and a viewport below `2^52`, every element of the final matrix is finite. -/
def Obligations.NoOverflowAfterLoads : Prop :=
  ∀ (m p : Fin 16 → BitVec 32) (w h : Nat) (r c : Fin 4), w < 2 ^ 52 → h < 2 ^ 52 →
    isFiniteNum
      (matMul (matMul (Mtx.ofElements fun k => Binary64.ofFixed (m k).toInt)
        (Mtx.ofElements fun k => Binary64.ofFixed (p k).toInt)) (screenMatrix w h))[r][c] = true

/-! ### Matrix commands -/

/-- R124, R126, R123: the projection case, push or not: load replaces the projection, multiply puts the new matrix
on its left (D5); then the final matrix is recomputed (D7). -/
def Obligations.ProjectionMatrixOp : Prop :=
  ∀ (s : State) (push : Bool) (addr : Word) (M : Mtx),
    s.resolve addr + 64 ≤ s.input.memSize → holdsMtx s (s.resolve addr) M →
    exec (.mtx push true true addr) s =
      .next { s with projMtx := .written M, finalMtx := finalOf s.ms[s.msp] (.written M) s.screenMtx } ∧
    ∀ P, s.projMtx = .written P →
      exec (.mtx push false true addr) s =
        .next { s with
          projMtx := .written (matMul M P)
          finalMtx := finalOf s.ms[s.msp] (.written (matMul M P)) s.screenMtx }

/-- R125, R126, R123: the modelview case: the slot `m` worked at is one up for a push, which copies nothing; load
replaces it, multiply puts the new matrix on the left of what the slot holds (D5); then the final matrix is
recomputed (D7). -/
def Obligations.ModelviewMatrixOp : Prop :=
  ∀ (s : State) (push : Bool) (addr : Word) (M : Mtx) (m : Fin 16),
    s.resolve addr + 64 ≤ s.input.memSize → holdsMtx s (s.resolve addr) M →
    m.val = s.msp.val + push.toNat →
    exec (.mtx push true false addr) s =
      .next { s with
        msp := m
        ms := s.ms.set m (.written M)
        finalMtx := finalOf (.written M) s.projMtx s.screenMtx } ∧
    ∀ T, s.ms[m] = .written T →
      exec (.mtx push false false addr) s =
        .next { s with
          msp := m
          ms := s.ms.set m (.written (matMul M T))
          finalMtx := finalOf (.written (matMul M T)) s.projMtx s.screenMtx }

/-- R126, R165: the errors of matrix op, in that order: overflow of a modelview push at 15, the 64 bytes not all in
the image, and a multiply into an `Unwritten` target (D8). -/
def Obligations.MatrixOpErrors : Prop :=
  ∀ (s : State) (push load proj : Bool) (addr : Word),
    (proj = false → push = true → s.msp.val = 15 → raises (.mtx push load proj addr) s .stackOverflow 0x01) ∧
    ((proj = true ∨ s.msp.val + push.toNat < 16) → s.input.memSize < s.resolve addr + 64 →
      raises (.mtx push load proj addr) s .outOfRange 0x01) ∧
    (proj = true → load = false → s.resolve addr + 64 ≤ s.input.memSize → s.projMtx = .unwritten →
      raises (.mtx push load proj addr) s .uninitializedRead 0x01) ∧
    (∀ m : Fin 16, m.val = s.msp.val + push.toNat → proj = false → load = false →
      s.resolve addr + 64 ≤ s.input.memSize → s.ms[m] = .unwritten →
      raises (.mtx push load proj addr) s .uninitializedRead 0x01)

/-- R127: pop matrix decrements the index and recomputes the final matrix, leaving the slot it left as it was; at
index 0 it raises `StackUnderflow`. What the final matrix is, is R35's and R123's (D7; see FinalMatrixNeverStale), and
what a raise records R164's. -/
def Obligations.PopMatrix : Prop :=
  ∀ s : State,
    (∀ m : Fin 16, s.msp.val = m.val + 1 →
      exec .popmtx s = .next { s with msp := m, finalMtx := finalOf s.ms[m] s.projMtx s.screenMtx }) ∧
    (s.msp.val = 0 → raises .popmtx s .stackUnderflow 0xBD)

/-- R124 to R127: what the matrix commands leave: the vertex registers and outputs, the segments, `pc` and the jump
stack, every slot of the stack but the one written, the projection in the modelview case, and the stack in the
projection case; and every byte of memory. -/
def Obligations.MatrixCommandsFrame : Prop :=
  ∀ (s t : State) (i : Instr), exec i s = .next t → t.live →
    (∀ push load addr, i = .mtx push load true addr → t.ms = s.ms ∧ t.msp = s.msp) ∧
    (∀ push load addr, i = .mtx push load false addr →
      t.projMtx = s.projMtx ∧ ∀ k : Fin 16, k ≠ t.msp → t.ms[k] = s.ms[k]) ∧
    (i = .popmtx → t.projMtx = s.projMtx ∧ t.ms = s.ms) ∧
    (((∃ push load proj addr, i = .mtx push load proj addr) ∨ i = .popmtx) →
      s.sameGeometry t ∧ s.sameControl t ∧ s.sameSegments t ∧ s.sameParse t)

/-- R130: after a matrix op or a pop that does not raise, the final matrix is the product of the current top, the
current projection and the screen matrix, whatever it was before (that a pop recomputes it, the association of the
product, and `Unwritten` when a factor is: D7, D8). -/
def Obligations.FinalMatrixNeverStale : Prop :=
  ∀ (s t : State) (i : Instr),
    ((∃ push load proj addr, i = .mtx push load proj addr) ∨ i = .popmtx) → exec i s = .next t → t.live →
    (∀ M P, t.ms[t.msp] = .written M → t.projMtx = .written P →
      t.finalMtx = .written (matMul (matMul M P) t.screenMtx)) ∧
    (t.ms[t.msp] = .unwritten ∨ t.projMtx = .unwritten → t.finalMtx = .unwritten)

/-- R129: a push followed immediately by a pop restores the matrix-stack index, and leaves every matrix up to it, and
the final matrix with it (that last clause is the spec's inference from R123, R125 and R127). -/
def Obligations.PushThenPopRestores : Prop :=
  ∀ (s t : State) (load : Bool) (addr : Word), exec (.mtx true load false addr) s = .next t → t.live →
    ∃ u, exec .popmtx t.advance = .next u ∧ u.status = t.status ∧ u.msp = s.msp ∧
      (∀ k : Fin 16, k ≤ s.msp → u.ms[k] = s.ms[k]) ∧
      (s.finalMtx = finalOf s.ms[s.msp] s.projMtx s.screenMtx → u.finalMtx = s.finalMtx)

/-! ### Control -/

/-- R140: a call pushes the already-advanced `pc` and goes to the resolved target; with 16 return addresses held it
raises `StackOverflow`; a tail branch pushes nothing and never raises. How an address resolves is R58's (see
SegmentedAddressResolves), and what a raise records R164's. -/
def Obligations.BranchCall : Prop :=
  ∀ (s : State) (addr : Word),
    (∀ d : Fin 16, s.jsp.val = d.val →
      exec (.dl addr) s =
        .next { s with js := s.js.set d s.pc, jsp := ⟨d.val + 1, by omega⟩, pc := s.resolve addr }) ∧
    (s.jsp.val = 16 → raises (.dl addr) s .stackOverflow 0x06) ∧
    exec (.dlNopush addr) s = .next { s with pc := s.resolve addr }

/-- R142: a return pops the most recent return address into `pc`; with none held it ends the parse. -/
def Obligations.ReturnPopsOrEnds : Prop :=
  ∀ s : State,
    (∀ d : Fin 16, s.jsp.val = d.val + 1 →
      exec .enddl s = .next { s with jsp := ⟨d.val, by omega⟩, pc := s.js[d] }) ∧
    (s.jsp.val = 0 → exec .enddl s = .next { s with status := .done })

/-- R140, R142: branch/call and return save and restore nothing else: the vertex registers and outputs, the
matrices, the segments, the live return addresses below the one pushed or popped, and every byte of memory stay. -/
def Obligations.ControlFrame : Prop :=
  ∀ (s t : State) (i : Instr), isStraight i = false → exec i s = .next t → t.live →
    s.sameGeometry t ∧ s.sameMatrices t ∧ s.sameSegments t ∧ s.sameParse t ∧
    (∀ k : Fin 16, k.val ≠ s.jsp.val → t.js[k] = s.js[k]) ∧
    (i = .enddl → t.js = s.js) ∧
    (∀ addr, i = .dlNopush addr → t.js = s.js ∧ t.jsp = s.jsp)

/-- R141: after a call, any nested calls and tail branches, and as many returns as there were calls, `pc` is the
address right after the outermost call, and the jump stack's depth is as before (that a tail branch adds no frame is
the spec's inference from R140 and R142). -/
def Obligations.NestedCallsReturnToCaller : Prop :=
  ∀ (s : State) (first : Word) (path : List (Bool × Word)),
    s.jsp.val + (1 + path.countP fun p => p.1) ≤ 16 →
    ∃ t,
      runCommands
        (.dl first :: path.map (fun p => if p.1 then .dl p.2 else .dlNopush p.2) ++
          List.replicate (1 + path.countP fun p => p.1) .enddl) s = .next t ∧
      t.pc = s.pc + 8 ∧ t.jsp = s.jsp ∧ t.status = s.status

/-! ### The whole machine -/

/-- R162, R164: an error that a command raises is one the table gives it, and its record holds the command's own
address and opcode. R161, R164: the record of every error of a step, before or in its command, holds the numeric code of
its kind. The codes are the spec's decision D21, the record's content D20. -/
def Obligations.CommandErrorsByTable : Prop :=
  (∀ (s t : State) (i : Instr) (err : ErrorRecord), s.live → exec i s = .next t → t.status = .faulted err →
    mayRaise i err.kind = true ∧ err.pc = s.pc - 8 ∧ err.opcode = some i.opcode) ∧
  (∀ (s t : State) (err : ErrorRecord), step s = .next t → t.status = .faulted err →
    (err.kind, err.code) ∈
      [(ErrorKind.outOfRange, 1), (.stackOverflow, 2), (.stackUnderflow, 3), (.unboundedExecution, 4),
        (.uninitializedRead, 5), (.invalidVertexIndex, 6)])

/-- R20, R30, R35, R36, R38, R107, R166: the invariant holds at the start of every parse whose starting address is a
byte address. -/
def Obligations.InvariantAtStart : Prop :=
  ∀ inp : ParseInput, inp.startAddr ≤ 4294967296 → (State.start inp).Inv

/-- The invariant is kept by every step that does not raise: the final matrix is fresh (R35), the counters are the
lengths of the outputs (R30), the faces number the vertices in order (R107), the budget is kept (R166), and `pc`
and the live return addresses are byte addresses (R20, R36, R53). -/
def Obligations.StepKeepsInvariant : Prop :=
  ∀ s t : State, s.Inv → step s = .next t → t.live → t.Inv

/-- R38: the output vertex buffer only ever holds triangles that passed the depth test and the trivial reject, in
any state that meets the invariant. -/
def Obligations.StepKeepsSurvivorsOnly : Prop :=
  ∀ s t : State, s.Inv → s.survivorsOnly → step s = .next t → t.live → t.survivorsOnly

/-- R38, R39: entries of the output buffers are never modified after they are appended. -/
def Obligations.OutputsAppendOnly : Prop :=
  ∀ s t : State, step s = .next t → t.live → s.vout <+: t.vout ∧ s.fout <+: t.fout

/-- R24, R174: source addresses take part in no transform and decide nothing: parses that differ in them alone go the
same way, and go on differing in them alone. -/
def Obligations.SourceAddressesDecideNothing : Prop :=
  ∀ s s' t : State, s.eraseSrc = s'.eraseSrc → step s = .next t →
    ∃ t', step s' = .next t' ∧ t'.status = t.status ∧ (t.live → t'.eraseSrc = t.eraseSrc)

/-- R36, I6: no rule reads a dead jump-stack slot: parses that differ in dead slots alone go the same way. -/
def Obligations.DeadReturnSlotsUnread : Prop :=
  ∀ s s' t : State, s.agreeLive s' → step s = .next t →
    ∃ t', step s' = .next t' ∧ t'.status = t.status ∧ (t.live → t.agreeLive t')

end
end

