-- ==== Sys2Proof/Laws/Arith.lean ====
section
/-! SUPPORT. What each step of the binary64 arithmetic can do: rounding an integer, reading a rounded integer as a
number, and the elements of a matrix. -/

namespace Sys2Proof

/-- Rounding `m / 2^d` is off by at most half a place, and gives an even result where it is off by exactly half. -/
theorem roundShift_nearest (m d : Nat) :
    2 * m ≤ 2 * (Binary64.roundShift m d * 2 ^ d) + 2 ^ d ∧
    2 * (Binary64.roundShift m d * 2 ^ d) ≤ 2 * m + 2 ^ d ∧
    (2 * m = 2 * (Binary64.roundShift m d * 2 ^ d) + 2 ^ d ∨ 2 * (Binary64.roundShift m d * 2 ^ d) = 2 * m + 2 ^ d →
      Binary64.roundShift m d % 2 = 0) := by
  have hdiv : m / 2 ^ d * 2 ^ d + m % 2 ^ d = m := Nat.div_add_mod' m (2 ^ d)
  have hlt : m % 2 ^ d < 2 ^ d := Nat.mod_lt m (Nat.two_pow_pos d)
  have hr : m - m / 2 ^ d * 2 ^ d = m % 2 ^ d := by omega
  simp only [Binary64.roundShift, Nat.shiftRight_eq_div_pow, Nat.shiftLeft_eq, one_mul, hr]
  split
  · rw [Nat.add_mul, one_mul]
    omega
  · omega

/-- A whole number of places is left as it is. -/
theorem roundShift_mul (n d : Nat) : Binary64.roundShift (n * 2 ^ d) d = n := by
  obtain ⟨h1, h2, -⟩ := roundShift_nearest (n * 2 ^ d) d
  have hp := Nat.two_pow_pos d
  rcases Nat.lt_trichotomy (Binary64.roundShift (n * 2 ^ d) d) n with h | h | h
  · have := Nat.mul_le_mul_right (2 ^ d) (show Binary64.roundShift (n * 2 ^ d) d + 1 ≤ n from h)
    rw [Nat.add_mul] at this
    omega
  · exact h
  · have := Nat.mul_le_mul_right (2 ^ d) (show n + 1 ≤ Binary64.roundShift (n * 2 ^ d) d from h)
    rw [Nat.add_mul] at this
    omega

/-- A magnitude of at most 53 significant bits below 2^1024 is read exactly, with a finite number. -/
theorem ofMagnitude_key? (neg : Bool) {m : Nat} (hm : m.log2 < 2098) (hd : 2 ^ (m.log2 - 52) ∣ m) :
    ∃ e f, Binary64.ofMagnitude neg m = .finite neg e f ∧ Binary64.magnitude e f = m := by
  have h52 : (4503599627370496 : Nat) = 2 ^ 52 := rfl
  simp only [Binary64.ofMagnitude]
  split
  · rename_i h
    refine ⟨_, _, rfl, ?_⟩
    simp [Binary64.magnitude, BitVec.toNat_ofNat, h]
  · rename_i h
    have hne : m ≠ 0 := by rintro rfl; exact h (by decide)
    have hlow : 52 ≤ m.log2 := (Nat.le_log2 hne).2 (by omega)
    have h1 : 2 ^ m.log2 ≤ m := Nat.log2_self_le hne
    have h2 : m < 2 ^ (m.log2 + 1) := Nat.lt_log2_self
    rw [dif_pos (by omega)]
    refine ⟨_, _, rfl, ?_⟩
    obtain ⟨n, hn⟩ := hd
    have hp := Nat.two_pow_pos (m.log2 - 52)
    have hq : m >>> (m.log2 - 52) = n := by
      rw [Nat.shiftRight_eq_div_pow]
      exact Nat.div_eq_of_eq_mul_right hp hn
    have e1 : 2 ^ m.log2 = 2 ^ (m.log2 - 52) * 2 ^ 52 := by rw [← Nat.pow_add]; congr 1; omega
    have e2 : 2 ^ (m.log2 + 1) = 2 ^ (m.log2 - 52) * 2 ^ 53 := by rw [← Nat.pow_add]; congr 1; omega
    have hn1 : 2 ^ 52 ≤ n := Nat.le_of_mul_le_mul_left (by rw [← e1, ← hn]; exact h1) hp
    have hn2 : n < 2 ^ 53 := Nat.lt_of_mul_lt_mul_left (a := 2 ^ (m.log2 - 52)) (by rw [← e2, ← hn]; exact h2)
    have hz : m.log2 - 51 ≠ 0 := by omega
    have hs : m.log2 - 51 - 1 = m.log2 - 52 := by omega
    have hmod : 4503599627370496 + n % 2 ^ 52 = n := by omega
    simp only [Binary64.magnitude, hz, if_false, hq, BitVec.toNat_ofNat, hmod, hs, Nat.shiftLeft_eq]
    rw [Nat.mul_comm]
    exact hn.symm

/-- From 2^1024 up a magnitude is read as an infinity. -/
theorem ofMagnitude_overflow (neg : Bool) {m : Nat} (hm : 2098 ≤ m.log2) : Binary64.ofMagnitude neg m = .inf neg := by
  have h : ¬ m < 4503599627370496 := fun h => by
    have h0 : m ≠ 0 := by rintro rfl; exact absurd hm (by decide)
    have := (Nat.log2_lt (k := 52) h0).2 h
    omega
  simp only [Binary64.ofMagnitude]
  rw [if_neg h, dif_neg (by omega)]

/-- Rounding gives an infinity or a finite number of the sign it is given. -/
theorem round_sign (neg : Bool) (m sh : Nat) :
    Binary64.round neg m sh = .inf neg ∨ ∃ e f, Binary64.round neg m sh = .finite neg e f := by
  simp only [Binary64.round, Binary64.ofMagnitude]
  split
  · exact .inr ⟨_, _, rfl⟩
  · split
    · exact .inr ⟨_, _, rfl⟩
    · exact .inl rfl

/-- A finite magnitude has at most 53 significant bits, in the place its exponent gives. -/
theorem magnitude_lt (e : Fin 2047) (f : BitVec 52) : Binary64.magnitude e f < 2 ^ (53 + (e.val - 1)) := by
  have hf := f.isLt
  unfold Binary64.magnitude
  split
  · exact Nat.lt_of_lt_of_le hf (Nat.pow_le_pow_right (by decide) (by omega))
  · rw [Nat.shiftLeft_eq, Nat.pow_add]
    exact Nat.mul_lt_mul_of_pos_right (by omega) (Nat.two_pow_pos _)

namespace Machine

@[simp] theorem ofElements_getElem (g : Fin 16 → Binary64) (r c : Fin 4) :
    (Mtx.ofElements g)[r][c] = g ⟨4 * r.val + c.val, by omega⟩ := by
  simp [Mtx.ofElements]

end Machine

end Sys2Proof
end

