-- ==== Sys2Proof/Laws/PerInstr.lean ====
section
/-! SUPPORT. A statement about every instruction as syntax, one lemma per constructor: its encoded first word carries
its opcode in `w0[31:24]` (R70, R72). -/

namespace Sys2Proof.Laws.OpcodeByte

/-- The opcode byte of a command's first word is the command's opcode. -/
def Statement (i : Instr) : Prop := field (encode i).1 24 8 = i.opcode

theorem top_byte (op : Byte) (rest : BitVec 24) : field ((op ++ rest : BitVec (8 + 24))) 24 8 = op := by
  simp only [field]
  exact BitVec.extractLsb'_append_eq_left

theorem mtx (push load proj : Bool) (addr : Word) : Statement (.mtx push load proj addr) :=
  top_byte 0x01#8 (0#5 ++ (flag push ++ (flag load ++ (flag proj ++ 64#16))))

theorem vtx (nm1 v0 : BitVec 4) (addr : Word) : Statement (.vtx nm1 v0 addr) :=
  top_byte 0x04#8 (nm1 ++ (v0 ++ BitVec.ofNat 16 (16 * (nm1.toNat + 1))))

theorem dl (addr : Word) : Statement (.dl addr) := top_byte 0x06#8 0#24

theorem dlNopush (addr : Word) : Statement (.dlNopush addr) := top_byte 0x06#8 (0#7 ++ (1#1 ++ 0#16))

theorem enddl : Statement .enddl := top_byte 0xB8#8 0#24

theorem mwSegment (seg : BitVec 4) (base : Word) : Statement (.mwSegment seg base) :=
  top_byte 0xBC#8 (0#10 ++ (seg ++ (0#2 ++ 0x06#8)))

theorem popmtx : Statement .popmtx := top_byte 0xBD#8 0#24

theorem tri1 (ia ib ic : Byte) : Statement (.tri1 ia ib ic) := top_byte 0xBF#8 0#24

theorem noopMovewordOther (sub : Byte) : Statement (.noopMovewordOther sub) := top_byte 0xBC#8 (0#16 ++ sub)

theorem noopUnrecognized (opcode : Byte) : Statement (.noopUnrecognized opcode) := top_byte opcode 0#24

end Sys2Proof.Laws.OpcodeByte
end

