-- ==== Sys2Proof/Laws/Decode.lean ====
section
/-! SUPPORT. Bits and fields of words, commands and concatenations, for proofs about the decoder and the encoder. -/

namespace Sys2Proof

/-- The high part of a concatenation. -/
theorem extract_append_left {h l : Nat} (x : BitVec h) (y : BitVec l) : (x ++ y).extractLsb' l h = x :=
  BitVec.extractLsb'_append_eq_left

/-- A field inside the low part of a concatenation. -/
theorem extract_append_low {h l : Nat} (x : BitVec h) (y : BitVec l) {a n : Nat} (hn : a + n ≤ l) :
    (x ++ y).extractLsb' a n = y.extractLsb' a n :=
  BitVec.extractLsb'_append_eq_of_add_le hn

theorem commandOf_getLsbD (w0 w1 : Word) (i : Nat) :
    (commandOf w0 w1).getLsbD i = if i < 32 then w1.getLsbD i else w0.getLsbD (i - 32) :=
  BitVec.getLsbD_append

theorem field_getLsbD (w : Word) (lo n i : Nat) : (field w lo n).getLsbD i = (decide (i < n) && w.getLsbD (lo + i)) :=
  BitVec.getLsbD_extractLsb' lo n w i

/-- Two words that agree on a field agree on each of its bits. -/
theorem bit_eq_of_field_eq {v w : Word} {lo n i : Nat} (h : field v lo n = field w lo n) (h1 : lo ≤ i)
    (h2 : i < lo + n) : bit v i = bit w i := by
  have := congrArg (fun b => b.getLsbD (i - lo)) h
  simpa only [field_getLsbD, bit, show i - lo < n by omega, show lo + (i - lo) = i by omega, decide_true,
    Bool.true_and] using this

/-- Two words that agree on a field agree on each part of it. -/
theorem field_eq_of_field_eq {v w : Word} {lo n a m : Nat} (h : field v lo n = field w lo n) (h1 : lo ≤ a)
    (h2 : a + m ≤ lo + n) : field v a m = field w a m := by
  apply BitVec.eq_of_getLsbD_eq
  intro i hi
  have := bit_eq_of_field_eq h (i := a + i) (by omega) (by omega)
  simpa only [field_getLsbD, hi, bit, decide_true, Bool.true_and] using this

/-- A word is its four bytes, the first the most significant (R54). -/
theorem wordOfBytes_fields (w : Word) :
    wordOfBytes (field w 24 8) (field w 16 8) (field w 8 8) (field w 0 8) = w := by
  apply BitVec.eq_of_getLsbD_eq
  intro i hi
  simp only [wordOfBytes, field, BitVec.getLsbD_append, BitVec.getLsbD_extractLsb']
  rcases Nat.lt_or_ge i 8 with h | h
  · simp [h]
  · rcases Nat.lt_or_ge i 16 with h2 | h2
    · simp [show ¬ i < 8 by omega, show i - 8 < 8 by omega, show 8 + (i - 8) = i by omega]
    · rcases Nat.lt_or_ge i 24 with h3 | h3
      · simp [show ¬ i < 8 by omega, show ¬ i - 8 < 8 by omega, show i - 8 - 8 < 8 by omega,
          show 16 + (i - 8 - 8) = i by omega]
      · simp [show ¬ i < 8 by omega, show ¬ i - 8 < 8 by omega, show ¬ i - 8 - 8 < 8 by omega,
          show i - 8 - 8 - 8 < 8 by omega, show 24 + (i - 8 - 8 - 8) = i by omega]

end Sys2Proof
end

