-- ==== Sys2Proof/Laws/State.lean ====
section
/-! SUPPORT. One lemma per field of State for each of its updates, each true by rfl, so that no proof unfolds a
record update. -/

namespace Sys2Proof.Machine

@[simp] theorem State.advance_pc (s : State) : s.advance.pc = s.pc + 8 := rfl
@[simp] theorem State.advance_vr (s : State) : s.advance.vr = s.vr := rfl
@[simp] theorem State.advance_seg (s : State) : s.advance.seg = s.seg := rfl
@[simp] theorem State.advance_ms (s : State) : s.advance.ms = s.ms := rfl
@[simp] theorem State.advance_msp (s : State) : s.advance.msp = s.msp := rfl
@[simp] theorem State.advance_projMtx (s : State) : s.advance.projMtx = s.projMtx := rfl
@[simp] theorem State.advance_finalMtx (s : State) : s.advance.finalMtx = s.finalMtx := rfl
@[simp] theorem State.advance_screenMtx (s : State) : s.advance.screenMtx = s.screenMtx := rfl
@[simp] theorem State.advance_js (s : State) : s.advance.js = s.js := rfl
@[simp] theorem State.advance_jsp (s : State) : s.advance.jsp = s.jsp := rfl
@[simp] theorem State.advance_vout (s : State) : s.advance.vout = s.vout := rfl
@[simp] theorem State.advance_fout (s : State) : s.advance.fout = s.fout := rfl
@[simp] theorem State.advance_cmdCount (s : State) : s.advance.cmdCount = s.cmdCount := rfl
@[simp] theorem State.advance_triCount (s : State) : s.advance.triCount = s.triCount := rfl
@[simp] theorem State.advance_vtxCount (s : State) : s.advance.vtxCount = s.vtxCount := rfl
@[simp] theorem State.advance_status (s : State) : s.advance.status = s.status := rfl
@[simp] theorem State.advance_input (s : State) : s.advance.input = s.input := rfl

@[simp] theorem State.count_pc (s : State) : s.count.pc = s.pc := rfl
@[simp] theorem State.count_vr (s : State) : s.count.vr = s.vr := rfl
@[simp] theorem State.count_seg (s : State) : s.count.seg = s.seg := rfl
@[simp] theorem State.count_ms (s : State) : s.count.ms = s.ms := rfl
@[simp] theorem State.count_msp (s : State) : s.count.msp = s.msp := rfl
@[simp] theorem State.count_projMtx (s : State) : s.count.projMtx = s.projMtx := rfl
@[simp] theorem State.count_finalMtx (s : State) : s.count.finalMtx = s.finalMtx := rfl
@[simp] theorem State.count_screenMtx (s : State) : s.count.screenMtx = s.screenMtx := rfl
@[simp] theorem State.count_js (s : State) : s.count.js = s.js := rfl
@[simp] theorem State.count_jsp (s : State) : s.count.jsp = s.jsp := rfl
@[simp] theorem State.count_vout (s : State) : s.count.vout = s.vout := rfl
@[simp] theorem State.count_fout (s : State) : s.count.fout = s.fout := rfl
@[simp] theorem State.count_cmdCount (s : State) : s.count.cmdCount = s.cmdCount + 1 := rfl
@[simp] theorem State.count_triCount (s : State) : s.count.triCount = s.triCount := rfl
@[simp] theorem State.count_vtxCount (s : State) : s.count.vtxCount = s.vtxCount := rfl
@[simp] theorem State.count_status (s : State) : s.count.status = s.status := rfl
@[simp] theorem State.count_input (s : State) : s.count.input = s.input := rfl

@[simp] theorem State.jump_pc (s : State) (a : Nat) : (s.jump a).pc = a := rfl
@[simp] theorem State.jump_vr (s : State) (a : Nat) : (s.jump a).vr = s.vr := rfl
@[simp] theorem State.jump_seg (s : State) (a : Nat) : (s.jump a).seg = s.seg := rfl
@[simp] theorem State.jump_ms (s : State) (a : Nat) : (s.jump a).ms = s.ms := rfl
@[simp] theorem State.jump_msp (s : State) (a : Nat) : (s.jump a).msp = s.msp := rfl
@[simp] theorem State.jump_projMtx (s : State) (a : Nat) : (s.jump a).projMtx = s.projMtx := rfl
@[simp] theorem State.jump_finalMtx (s : State) (a : Nat) : (s.jump a).finalMtx = s.finalMtx := rfl
@[simp] theorem State.jump_screenMtx (s : State) (a : Nat) : (s.jump a).screenMtx = s.screenMtx := rfl
@[simp] theorem State.jump_js (s : State) (a : Nat) : (s.jump a).js = s.js := rfl
@[simp] theorem State.jump_jsp (s : State) (a : Nat) : (s.jump a).jsp = s.jsp := rfl
@[simp] theorem State.jump_vout (s : State) (a : Nat) : (s.jump a).vout = s.vout := rfl
@[simp] theorem State.jump_fout (s : State) (a : Nat) : (s.jump a).fout = s.fout := rfl
@[simp] theorem State.jump_cmdCount (s : State) (a : Nat) : (s.jump a).cmdCount = s.cmdCount := rfl
@[simp] theorem State.jump_triCount (s : State) (a : Nat) : (s.jump a).triCount = s.triCount := rfl
@[simp] theorem State.jump_vtxCount (s : State) (a : Nat) : (s.jump a).vtxCount = s.vtxCount := rfl
@[simp] theorem State.jump_status (s : State) (a : Nat) : (s.jump a).status = s.status := rfl
@[simp] theorem State.jump_input (s : State) (a : Nat) : (s.jump a).input = s.input := rfl

@[simp] theorem State.recomputeFinal_pc (s : State) : s.recomputeFinal.pc = s.pc := rfl
@[simp] theorem State.recomputeFinal_vr (s : State) : s.recomputeFinal.vr = s.vr := rfl
@[simp] theorem State.recomputeFinal_seg (s : State) : s.recomputeFinal.seg = s.seg := rfl
@[simp] theorem State.recomputeFinal_ms (s : State) : s.recomputeFinal.ms = s.ms := rfl
@[simp] theorem State.recomputeFinal_msp (s : State) : s.recomputeFinal.msp = s.msp := rfl
@[simp] theorem State.recomputeFinal_projMtx (s : State) : s.recomputeFinal.projMtx = s.projMtx := rfl
@[simp] theorem State.recomputeFinal_finalMtx (s : State) : s.recomputeFinal.finalMtx = finalOf s.top s.projMtx s.screenMtx := rfl
@[simp] theorem State.recomputeFinal_screenMtx (s : State) : s.recomputeFinal.screenMtx = s.screenMtx := rfl
@[simp] theorem State.recomputeFinal_js (s : State) : s.recomputeFinal.js = s.js := rfl
@[simp] theorem State.recomputeFinal_jsp (s : State) : s.recomputeFinal.jsp = s.jsp := rfl
@[simp] theorem State.recomputeFinal_vout (s : State) : s.recomputeFinal.vout = s.vout := rfl
@[simp] theorem State.recomputeFinal_fout (s : State) : s.recomputeFinal.fout = s.fout := rfl
@[simp] theorem State.recomputeFinal_cmdCount (s : State) : s.recomputeFinal.cmdCount = s.cmdCount := rfl
@[simp] theorem State.recomputeFinal_triCount (s : State) : s.recomputeFinal.triCount = s.triCount := rfl
@[simp] theorem State.recomputeFinal_vtxCount (s : State) : s.recomputeFinal.vtxCount = s.vtxCount := rfl
@[simp] theorem State.recomputeFinal_status (s : State) : s.recomputeFinal.status = s.status := rfl
@[simp] theorem State.recomputeFinal_input (s : State) : s.recomputeFinal.input = s.input := rfl

@[simp] theorem State.setSegment_pc (s : State) (i : BitVec 4) (b : Word) : (s.setSegment i b).pc = s.pc := rfl
@[simp] theorem State.setSegment_vr (s : State) (i : BitVec 4) (b : Word) : (s.setSegment i b).vr = s.vr := rfl
@[simp] theorem State.setSegment_seg (s : State) (i : BitVec 4) (b : Word) : (s.setSegment i b).seg = s.seg.set i.toNat (field b 0 29) i.isLt := rfl
@[simp] theorem State.setSegment_ms (s : State) (i : BitVec 4) (b : Word) : (s.setSegment i b).ms = s.ms := rfl
@[simp] theorem State.setSegment_msp (s : State) (i : BitVec 4) (b : Word) : (s.setSegment i b).msp = s.msp := rfl
@[simp] theorem State.setSegment_projMtx (s : State) (i : BitVec 4) (b : Word) : (s.setSegment i b).projMtx = s.projMtx := rfl
@[simp] theorem State.setSegment_finalMtx (s : State) (i : BitVec 4) (b : Word) : (s.setSegment i b).finalMtx = s.finalMtx := rfl
@[simp] theorem State.setSegment_screenMtx (s : State) (i : BitVec 4) (b : Word) : (s.setSegment i b).screenMtx = s.screenMtx := rfl
@[simp] theorem State.setSegment_js (s : State) (i : BitVec 4) (b : Word) : (s.setSegment i b).js = s.js := rfl
@[simp] theorem State.setSegment_jsp (s : State) (i : BitVec 4) (b : Word) : (s.setSegment i b).jsp = s.jsp := rfl
@[simp] theorem State.setSegment_vout (s : State) (i : BitVec 4) (b : Word) : (s.setSegment i b).vout = s.vout := rfl
@[simp] theorem State.setSegment_fout (s : State) (i : BitVec 4) (b : Word) : (s.setSegment i b).fout = s.fout := rfl
@[simp] theorem State.setSegment_cmdCount (s : State) (i : BitVec 4) (b : Word) : (s.setSegment i b).cmdCount = s.cmdCount := rfl
@[simp] theorem State.setSegment_triCount (s : State) (i : BitVec 4) (b : Word) : (s.setSegment i b).triCount = s.triCount := rfl
@[simp] theorem State.setSegment_vtxCount (s : State) (i : BitVec 4) (b : Word) : (s.setSegment i b).vtxCount = s.vtxCount := rfl
@[simp] theorem State.setSegment_status (s : State) (i : BitVec 4) (b : Word) : (s.setSegment i b).status = s.status := rfl
@[simp] theorem State.setSegment_input (s : State) (i : BitVec 4) (b : Word) : (s.setSegment i b).input = s.input := rfl

@[simp] theorem State.emit_pc (s : State) (A B C : Vertex) : (s.emit A B C).pc = s.pc := rfl
@[simp] theorem State.emit_vr (s : State) (A B C : Vertex) : (s.emit A B C).vr = s.vr := rfl
@[simp] theorem State.emit_seg (s : State) (A B C : Vertex) : (s.emit A B C).seg = s.seg := rfl
@[simp] theorem State.emit_ms (s : State) (A B C : Vertex) : (s.emit A B C).ms = s.ms := rfl
@[simp] theorem State.emit_msp (s : State) (A B C : Vertex) : (s.emit A B C).msp = s.msp := rfl
@[simp] theorem State.emit_projMtx (s : State) (A B C : Vertex) : (s.emit A B C).projMtx = s.projMtx := rfl
@[simp] theorem State.emit_finalMtx (s : State) (A B C : Vertex) : (s.emit A B C).finalMtx = s.finalMtx := rfl
@[simp] theorem State.emit_screenMtx (s : State) (A B C : Vertex) : (s.emit A B C).screenMtx = s.screenMtx := rfl
@[simp] theorem State.emit_js (s : State) (A B C : Vertex) : (s.emit A B C).js = s.js := rfl
@[simp] theorem State.emit_jsp (s : State) (A B C : Vertex) : (s.emit A B C).jsp = s.jsp := rfl
@[simp] theorem State.emit_vout (s : State) (A B C : Vertex) : (s.emit A B C).vout = s.vout ++ [A, B, C] := rfl
@[simp] theorem State.emit_fout (s : State) (A B C : Vertex) : (s.emit A B C).fout = s.fout ++ [⟨s.vout.length, s.vout.length + 1, s.vout.length + 2, s.cmdAddr⟩] := rfl
@[simp] theorem State.emit_cmdCount (s : State) (A B C : Vertex) : (s.emit A B C).cmdCount = s.cmdCount := rfl
@[simp] theorem State.emit_triCount (s : State) (A B C : Vertex) : (s.emit A B C).triCount = s.triCount + 1 := rfl
@[simp] theorem State.emit_vtxCount (s : State) (A B C : Vertex) : (s.emit A B C).vtxCount = s.vtxCount + 3 := rfl
@[simp] theorem State.emit_status (s : State) (A B C : Vertex) : (s.emit A B C).status = s.status := rfl
@[simp] theorem State.emit_input (s : State) (A B C : Vertex) : (s.emit A B C).input = s.input := rfl

@[simp] theorem State.start_pc (inp : ParseInput) : (State.start inp).pc = inp.startAddr := rfl
@[simp] theorem State.start_vr (inp : ParseInput) : (State.start inp).vr = Vector.replicate 64 .unwritten := rfl
@[simp] theorem State.start_seg (inp : ParseInput) : (State.start inp).seg = Vector.replicate 16 0 := rfl
@[simp] theorem State.start_ms (inp : ParseInput) : (State.start inp).ms = Vector.replicate 16 .unwritten := rfl
@[simp] theorem State.start_msp (inp : ParseInput) : (State.start inp).msp = 0 := rfl
@[simp] theorem State.start_projMtx (inp : ParseInput) : (State.start inp).projMtx = .unwritten := rfl
@[simp] theorem State.start_finalMtx (inp : ParseInput) : (State.start inp).finalMtx = .unwritten := rfl
@[simp] theorem State.start_screenMtx (inp : ParseInput) : (State.start inp).screenMtx = screenMatrix inp.width inp.height := rfl
@[simp] theorem State.start_js (inp : ParseInput) : (State.start inp).js = Vector.replicate 16 0 := rfl
@[simp] theorem State.start_jsp (inp : ParseInput) : (State.start inp).jsp = 0 := rfl
@[simp] theorem State.start_vout (inp : ParseInput) : (State.start inp).vout = [] := rfl
@[simp] theorem State.start_fout (inp : ParseInput) : (State.start inp).fout = [] := rfl
@[simp] theorem State.start_cmdCount (inp : ParseInput) : (State.start inp).cmdCount = 0 := rfl
@[simp] theorem State.start_triCount (inp : ParseInput) : (State.start inp).triCount = 0 := rfl
@[simp] theorem State.start_vtxCount (inp : ParseInput) : (State.start inp).vtxCount = 0 := rfl
@[simp] theorem State.start_status (inp : ParseInput) : (State.start inp).status = .running := rfl
@[simp] theorem State.start_input (inp : ParseInput) : (State.start inp).input = inp := rfl

@[simp] theorem State.abort_status (s : State) (err : ErrorRecord) : (s.abort err).status = .faulted err := rfl
@[simp] theorem State.abort_screenMtx (s : State) (err : ErrorRecord) : (s.abort err).screenMtx = s.screenMtx := rfl
@[simp] theorem State.abort_input (s : State) (err : ErrorRecord) : (s.abort err).input = s.input := rfl

@[simp] theorem Status.isFaulted_running : Status.running.isFaulted = false := rfl
@[simp] theorem Status.isFaulted_done : Status.done.isFaulted = false := rfl
@[simp] theorem Status.isFaulted_faulted (err : ErrorRecord) : (Status.faulted err).isFaulted = true := rfl

end Sys2Proof.Machine
end

