-- ==== Sys2Proof/Laws/Memory.lean ====
section
/-! SUPPORT. The memory image: reading after placing a byte, the canonical form, and the read port. -/

namespace Sys2Proof.Machine

/-! ### Reading after placing -/

theorem imageByte_of_wfFrom_lt {low : Nat} {image : List Host.Cell} (h : imageWfFrom low image = true)
    {a : Nat} (ha : a < low) : imageByte image a = Config.unlistedByte := by
  induction image generalizing low with
  | nil => rfl
  | cons cell rest ih =>
    obtain ⟨k, v⟩ := cell
    simp only [imageWfFrom, Bool.and_eq_true, decide_eq_true_eq] at h
    have hne : k ≠ a := by omega
    simp only [imageByte, if_neg hne]
    exact ih h.2 (by omega)

theorem imageByte_setImageByte_same {low : Nat} {image : List Host.Cell} (h : imageWfFrom low image = true)
    (a : Nat) (b : Byte) : imageByte (setImageByte image a b) a = b := by
  induction image generalizing low with
  | nil => by_cases hb : b = Config.unlistedByte <;> simp [setImageByte, imageByte, hb]
  | cons cell rest ih =>
    obtain ⟨k, v⟩ := cell
    simp only [imageWfFrom, Bool.and_eq_true, decide_eq_true_eq] at h
    rcases Nat.lt_trichotomy a k with hlt | heq | hgt
    · have hne : k ≠ a := by omega
      have := imageByte_of_wfFrom_lt h.2 (a := a) (by omega)
      by_cases hb : b = Config.unlistedByte <;> simp [setImageByte, imageByte, hlt, hb, hne, this]
    · subst heq
      have := imageByte_of_wfFrom_lt h.2 (a := a) (by omega)
      by_cases hb : b = Config.unlistedByte <;> simp [setImageByte, imageByte, hb, this]
    · have h1 : ¬ a < k := by omega
      have h2 : a ≠ k := by omega
      have h3 : k ≠ a := by omega
      simp only [setImageByte, if_neg h1, if_neg h2, imageByte, if_neg h3]
      exact ih h.2

theorem imageByte_setImageByte_ne {low : Nat} {image : List Host.Cell} (h : imageWfFrom low image = true)
    {a c : Nat} (hne : c ≠ a) (b : Byte) : imageByte (setImageByte image a b) c = imageByte image c := by
  induction image generalizing low with
  | nil =>
    by_cases hb : b = Config.unlistedByte
    · simp [setImageByte, hb]
    · simp [setImageByte, imageByte, hb, Ne.symm hne]
  | cons cell rest ih =>
    obtain ⟨k, v⟩ := cell
    simp only [imageWfFrom, Bool.and_eq_true, decide_eq_true_eq] at h
    rcases Nat.lt_trichotomy a k with hlt | heq | hgt
    · by_cases hb : b = Config.unlistedByte <;> simp [setImageByte, imageByte, hlt, hb, Ne.symm hne]
    · subst heq
      by_cases hb : b = Config.unlistedByte <;> simp [setImageByte, imageByte, hb, Ne.symm hne]
    · have h1 : ¬ a < k := by omega
      have h2 : a ≠ k := by omega
      simp only [setImageByte, if_neg h1, if_neg h2, imageByte]
      split
      · rfl
      · exact ih h.2

/-! ### The canonical form -/

theorem setImageByte_wfFrom {low : Nat} {image : List Host.Cell} (h : imageWfFrom low image = true)
    {a : Nat} (ha : low ≤ a) (b : Byte) : imageWfFrom low (setImageByte image a b) = true := by
  induction image generalizing low with
  | nil => by_cases hb : b = Config.unlistedByte <;> simp [setImageByte, imageWfFrom, hb, ha]
  | cons cell rest ih =>
    obtain ⟨k, v⟩ := cell
    have h' := h
    simp only [imageWfFrom, Bool.and_eq_true, decide_eq_true_eq] at h
    obtain ⟨⟨hk, hv⟩, hrest⟩ := h
    have weaken : ∀ {l m : Nat} {im : List Host.Cell}, l ≤ m → imageWfFrom m im = true → imageWfFrom l im = true := by
      intro l m im hlm him
      cases im with
      | nil => rfl
      | cons c r =>
        simp only [imageWfFrom, Bool.and_eq_true, decide_eq_true_eq] at him ⊢
        exact ⟨⟨by omega, him.1.2⟩, him.2⟩
    rcases Nat.lt_trichotomy a k with hlt | heq | hgt
    · by_cases hb : b = Config.unlistedByte
      · simp only [setImageByte, if_pos hlt, if_pos hb]
        exact h'
      · simp only [setImageByte, if_pos hlt, if_neg hb, imageWfFrom, Bool.and_eq_true, decide_eq_true_eq]
        exact ⟨⟨ha, by simpa using hb⟩, ⟨by omega, hv⟩, hrest⟩
    · subst heq
      by_cases hb : b = Config.unlistedByte
      · simpa [setImageByte, hb] using weaken (by omega) hrest
      · simp only [setImageByte, Nat.lt_irrefl, if_false, if_true, if_neg hb, imageWfFrom, Bool.and_eq_true,
          decide_eq_true_eq]
        exact ⟨⟨ha, by simpa using hb⟩, hrest⟩
    · have h1 : ¬ a < k := by omega
      have h2 : a ≠ k := by omega
      simp only [setImageByte, if_neg h1, if_neg h2, imageWfFrom, Bool.and_eq_true, decide_eq_true_eq]
      exact ⟨⟨hk, hv⟩, ih hrest (by omega)⟩

theorem setImageByte_wf {image : List Host.Cell} (h : Memory.wf image = true) (a : Nat) (b : Byte) :
    Memory.wf (setImageByte image a b) = true :=
  setImageByte_wfFrom h (Nat.zero_le a) b

theorem setImageBytes_wf {image : List Host.Cell} (h : Memory.wf image = true) (a : Nat) (bytes : List Byte) :
    Memory.wf (setImageBytes image a bytes) = true := by
  induction bytes generalizing image a with
  | nil => exact h
  | cons b rest ih => exact ih (setImageByte_wf h a b) (a + 1)

theorem placeCommand_wf {s : State} (h : Memory.wf s.input.image = true) (nbits w : Nat) :
    Memory.wf (placeCommand s nbits w).input.image = true :=
  setImageBytes_wf h s.pc _

theorem reset_wf : Memory.wf State.reset.input.image = true := rfl

/-! ### The read port -/

theorem imageValue_lt (image : List Host.Cell) (a : Nat) (n : Nat) : imageValue image a n < 256 ^ n := by
  induction n with
  | zero => simp [imageValue]
  | succ n ih =>
    have := (imageByte image (a + n)).isLt
    simp only [imageValue, Nat.pow_succ]
    omega

theorem memRead_of_inImage {s : State} {a : Nat} {n : Nat} (h : s.inImage a n) :
    s.memRead a n = .ok (imageValue s.input.image a n) := if_pos h

theorem memRead_of_not_inImage {s : State} {a : Nat} {n : Nat} (h : ¬ s.inImage a n) :
    s.memRead a n = .error .outOfRange := if_neg h

/-- A record checked whole answers every read inside it: the reads after the check of R56 never raise. -/
theorem memRead_inside_record {s : State} {a : Nat} {size off n : Nat} (h : s.inImage a size)
    (hoff : off + n ≤ size) : s.memRead (a + off) n = .ok (imageValue s.input.image (a + off) n) := by
  apply memRead_of_inImage
  change a + size ≤ s.input.memSize at h
  change a + off + n ≤ s.input.memSize
  omega

end Sys2Proof.Machine
end

