-- ==== Sys2Proof/Laws/Ops.lean ====
section
/-! SUPPORT. One lemma per shared operation that says everything it can do, and the inversion of a command's
answer, so that later proofs cite them instead of unfolding the operation. -/

namespace Sys2Proof.Machine

/-! ### Raising and finishing -/

@[simp] theorem finish_ok (opcode : Byte) (s t : State) : finish opcode s (.ok t) = .next t := rfl

@[simp] theorem finish_error (opcode : Byte) (s : State) (kind : ErrorKind) :
    finish opcode s (.error kind) = .next (s.abort ⟨kind, s.pc - 8, some opcode⟩) := rfl

theorem State.abort_not_live (s : State) (err : ErrorRecord) : ¬ (s.abort err).live := by
  simp [State.live]

/-- A finished command answers a state in every case: the one it computed, or the failed one. -/
theorem finish_eq_next {opcode : Byte} {s t : State} {r : Except ErrorKind State}
    (h : finish opcode s r = .next t) :
    r = .ok t ∨ ∃ kind, r = .error kind ∧ t = s.abort ⟨kind, s.pc - 8, some opcode⟩ := by
  cases r with
  | ok u => exact .inl (congrArg _ (by simpa using h))
  | error kind => exact .inr ⟨kind, rfl, by simpa using h.symm⟩

/-- A command that completes computed its state. -/
theorem finish_live {opcode : Byte} {s t : State} {r : Except ErrorKind State}
    (h : finish opcode s r = .next t) (live : t.live) : r = .ok t := by
  rcases finish_eq_next h with h | ⟨kind, -, rfl⟩
  · exact h
  · exact absurd live (State.abort_not_live _ _)

theorem map_ok {ε α β : Type} {f : α → β} {r : Except ε α} {b : β} (h : r.map f = .ok b) :
    ∃ a, r = .ok a ∧ b = f a := by
  cases r with
  | ok a => exact ⟨a, rfl, by simpa [Except.map] using h.symm⟩
  | error e => cases h

/-! ### Operand forms -/

theorem combine_eq_ok {load : Bool} {M T' : Mtx} {target : Slot Mtx} (h : combine load M target = .ok T') :
    (load = true ∧ T' = M) ∨ (load = false ∧ ∃ T, target = .written T ∧ T' = matMul M T) := by
  cases load <;> cases target <;> simp_all [combine]

theorem combine_eq_error {load : Bool} {M : Mtx} {target : Slot Mtx} {kind : ErrorKind}
    (h : combine load M target = .error kind) :
    load = false ∧ target = .unwritten ∧ kind = .uninitializedRead := by
  cases load <;> cases target <;> simp_all [combine]

theorem loadMtx_eq_ok {s : State} {a : Nat} {M : Mtx} (h : s.loadMtx a = .ok M) :
    a + 64 ≤ s.input.memSize ∧ M = s.mtxAt a := by
  unfold State.loadMtx at h
  split at h
  · exact ⟨‹_›, by simpa using h.symm⟩
  · cases h

theorem loadMtx_eq_error {s : State} {a : Nat} {kind : ErrorKind} (h : s.loadMtx a = .error kind) :
    s.input.memSize < a + 64 ∧ kind = .outOfRange := by
  unfold State.loadMtx at h
  split at h
  · cases h
  · rename_i hout
    exact ⟨Nat.lt_of_not_le hout, by simpa using h.symm⟩

theorem pushedMsp_eq_ok {s : State} {push : Bool} {m : Fin 16} (h : s.pushedMsp push = .ok m) :
    m.val = s.msp.val + push.toNat := by
  unfold State.pushedMsp at h
  split at h
  · split at h
    · simp_all [← Except.ok.inj h]
    · cases h
  · simp_all [← Except.ok.inj h]

theorem pushedMsp_eq_error {s : State} {push : Bool} {kind : ErrorKind} (h : s.pushedMsp push = .error kind) :
    push = true ∧ s.msp.val = 15 ∧ kind = .stackOverflow := by
  unfold State.pushedMsp at h
  split at h
  · split at h
    · cases h
    · exact ⟨‹_›, by omega, by simpa using h.symm⟩
  · cases h

theorem indexedVertex_eq_ok {s : State} {f : Byte} {v : Vertex} (h : s.indexedVertex f = .ok v) :
    f.toNat % 10 = 0 ∧ ∃ hk : f.toNat / 10 < 64, s.vr[f.toNat / 10] = .written v := by
  unfold State.indexedVertex at h
  split at h
  · cases h
  · rename_i hmod
    split at h
    · rename_i hlt
      refine ⟨by simpa using hmod, hlt, ?_⟩
      split at h
      · cases h
      · rename_i w hw
        rw [hw, Except.ok.inj h]
    · cases h

theorem indexedVertex_eq_error {s : State} {f : Byte} {kind : ErrorKind}
    (h : s.indexedVertex f = .error kind) : kind = .invalidVertexIndex ∨ kind = .uninitializedRead := by
  unfold State.indexedVertex at h
  split at h
  · exact .inl (Except.error.inj h).symm
  · split at h
    · split at h
      · exact .inr (Except.error.inj h).symm
      · cases h
    · exact .inl (Except.error.inj h).symm

/-- The targets of a load are registers `v0 + i` to `v0 + i + n - 1`; no other changes. -/
theorem loadRecords_other {s : State} {F : Mtx} {base v0 n i : Nat} {vr vr' : Vector (Slot Vertex) 64}
    (h : s.loadRecords F base v0 n i vr = .ok vr') (k : Nat) (hk : k < 64) (hout : k < v0 + i ∨ v0 + i + n ≤ k) :
    vr'[k] = vr[k] := by
  induction n generalizing i vr with
  | zero => simp [← Except.ok.inj (h : Except.ok vr = Except.ok vr')]
  | succ n ih =>
    simp only [State.loadRecords] at h
    split at h
    · split at h
      · rw [ih h (by omega), Vector.getElem_set_ne _ _ (by omega)]
      · cases h
    · cases h

theorem loadRecords_eq_error {s : State} {F : Mtx} {base v0 n i : Nat} {vr : Vector (Slot Vertex) 64}
    {kind : ErrorKind} (hv : v0 + i + n ≤ 64) (h : s.loadRecords F base v0 n i vr = .error kind) :
    kind = .outOfRange := by
  induction n generalizing i vr with
  | zero => cases h
  | succ n ih =>
    simp only [State.loadRecords] at h
    split at h
    · split at h
      · exact ih (by omega) h
      · exact (Except.error.inj h).symm
    · omega

/-! ### The stacks -/

theorem pushReturn_eq_ok {s t : State} (h : s.pushReturn = .ok t) :
    ∃ hd : s.jsp.val < 16,
      t = { s with js := s.js.set s.jsp.val s.pc hd, jsp := ⟨s.jsp.val + 1, by omega⟩ } := by
  unfold State.pushReturn at h
  split at h
  · exact ⟨‹_›, (Except.ok.inj h).symm⟩
  · cases h

theorem pushReturn_eq_error {s : State} {kind : ErrorKind} (h : s.pushReturn = .error kind) :
    s.jsp.val = 16 ∧ kind = .stackOverflow := by
  unfold State.pushReturn at h
  split at h
  · cases h
  · exact ⟨by omega, (Except.error.inj h).symm⟩

theorem popReturn_empty {s : State} (h : s.jsp.val = 0) : s.popReturn = { s with status := .done } := dif_pos h

theorem popReturn_held {s : State} {d : Nat} (h : s.jsp.val = d + 1) :
    s.popReturn = { s with jsp := ⟨d, by omega⟩, pc := s.js[d]'(by omega) } := by
  have hne : ¬ s.jsp.val = 0 := by omega
  have hd : s.jsp.val - 1 = d := by omega
  unfold State.popReturn
  rw [dif_neg hne]
  congr 1
  · simp only [hd]
  · exact Fin.ext hd

theorem popMsp_eq_ok {s t : State} (h : s.popMsp = .ok t) :
    ∃ m : Fin 16, s.msp.val = m.val + 1 ∧ t = { s with msp := m } := by
  unfold State.popMsp at h
  split at h
  · cases h
  · exact ⟨_, by simp only; omega, (Except.ok.inj h).symm⟩

theorem popMsp_eq_error {s : State} {kind : ErrorKind} (h : s.popMsp = .error kind) :
    s.msp.val = 0 ∧ kind = .stackUnderflow := by
  unfold State.popMsp at h
  split at h
  · exact ⟨‹_›, (Except.error.inj h).symm⟩
  · cases h

/-! ### What a command that completes has done -/

theorem mtxProjection_eq_ok {s t : State} {load : Bool} {addr : Word}
    (h : s.mtxProjection load addr = .ok t) :
    ∃ P : Mtx, s.resolve addr + 64 ≤ s.input.memSize ∧ combine load (s.mtxAt (s.resolve addr)) s.projMtx = .ok P ∧
      t = { s with projMtx := .written P } := by
  simp only [State.mtxProjection, bind, Except.bind] at h
  split at h
  · cases h
  · rename_i M hM
    obtain ⟨hin, rfl⟩ := loadMtx_eq_ok hM
    split at h
    · cases h
    · rename_i P hP
      exact ⟨P, hin, hP, (Except.ok.inj h).symm⟩

theorem mtxModelview_eq_ok {s t : State} {push load : Bool} {addr : Word}
    (h : s.mtxModelview push load addr = .ok t) :
    ∃ (m : Fin 16) (T : Mtx), m.val = s.msp.val + push.toNat ∧ s.resolve addr + 64 ≤ s.input.memSize ∧
      combine load (s.mtxAt (s.resolve addr)) s.ms[m] = .ok T ∧
      t = { s with msp := m, ms := s.ms.set m (.written T) } := by
  simp only [State.mtxModelview, bind, Except.bind] at h
  split at h
  · cases h
  · rename_i m hm
    split at h
    · cases h
    · rename_i M hM
      obtain ⟨hin, rfl⟩ := loadMtx_eq_ok hM
      split at h
      · cases h
      · rename_i T hT
        exact ⟨m, T, pushedMsp_eq_ok hm, hin, hT, (Except.ok.inj h).symm⟩

theorem loadVertices_eq_ok {s t : State} {nm1 v0 : BitVec 4} {addr : Word}
    (h : s.loadVertices nm1 v0 addr = .ok t) :
    ∃ (F : Mtx) (vr : Vector (Slot Vertex) 64), s.finalMtx = .written F ∧
      s.loadRecords F (s.resolve addr) v0.toNat (nm1.toNat + 1) 0 s.vr = .ok vr ∧ t = { s with vr := vr } := by
  unfold State.loadVertices at h
  split at h
  · cases h
  · rename_i F hF
    split at h
    · rename_i vr hvr
      exact ⟨F, vr, hF, hvr, (Except.ok.inj h).symm⟩
    · cases h

theorem drawTriangle_eq_ok {s t : State} {ia ib ic : Byte} (h : s.drawTriangle ia ib ic = .ok t) :
    ∃ A B C : Vertex, s.indexedVertex ia = .ok A ∧ s.indexedVertex ib = .ok B ∧ s.indexedVertex ic = .ok C ∧
      t = s.draw A B C := by
  unfold State.drawTriangle at h
  split at h
  · cases h
  · cases h
  · cases h
  · rename_i A B C hA hB hC
    exact ⟨A, B, C, hA, hB, hC, (Except.ok.inj h).symm⟩

/-! ### Each command as an answer of its pseudocode -/

theorem exec_mtx (push load proj : Bool) (addr : Word) (s : State) :
    exec (.mtx push load proj addr) s = finish 0x01 s
      ((if proj then s.mtxProjection load addr else s.mtxModelview push load addr).map State.recomputeFinal) := rfl

theorem exec_vtx (nm1 v0 : BitVec 4) (addr : Word) (s : State) :
    exec (.vtx nm1 v0 addr) s = finish 0x04 s (s.loadVertices nm1 v0 addr) := rfl

theorem exec_dl (addr : Word) (s : State) :
    exec (.dl addr) s = finish 0x06 s (s.pushReturn.map fun t => t.jump (s.resolve addr)) := rfl

theorem exec_dlNopush (addr : Word) (s : State) : exec (.dlNopush addr) s = .next (s.jump (s.resolve addr)) := rfl

theorem exec_enddl (s : State) : exec .enddl s = .next s.popReturn := rfl

theorem exec_mwSegment (seg : BitVec 4) (base : Word) (s : State) :
    exec (.mwSegment seg base) s = .next (s.setSegment seg base) := rfl

theorem exec_popmtx (s : State) : exec .popmtx s = finish 0xBD s (s.popMsp.map State.recomputeFinal) := rfl

theorem exec_tri1 (ia ib ic : Byte) (s : State) :
    exec (.tri1 ia ib ic) s = finish 0xBF s (s.drawTriangle ia ib ic) := rfl

/-- A command always answers a next state. -/
theorem exec_answers (i : Instr) (s : State) : ∃ t, exec i s = .next t := by
  have fin : ∀ (op : Byte) (r : Except ErrorKind State), ∃ t, finish op s r = .next t := by
    intro op r
    cases r with
    | ok t => exact ⟨t, rfl⟩
    | error kind => exact ⟨_, rfl⟩
  cases i with
  | noopMovewordOther sub => exact ⟨s, rfl⟩
  | noopUnrecognized opcode => exact ⟨s, rfl⟩
  | dlNopush addr => exact ⟨_, rfl⟩
  | enddl => exact ⟨_, rfl⟩
  | mwSegment seg base => exact ⟨_, rfl⟩
  | _ => exact fin _ _

/-- What a command that completes has done, by command: the one inversion of `exec`. -/
theorem exec_live_cases {i : Instr} {s u : State} (h : exec i s = .next u) (live : u.live) :
    (∃ push load addr v, i = .mtx push load true addr ∧ s.mtxProjection load addr = .ok v ∧ u = v.recomputeFinal) ∨
    (∃ push load addr v, i = .mtx push load false addr ∧ s.mtxModelview push load addr = .ok v ∧
      u = v.recomputeFinal) ∨
    (∃ nm1 v0 addr, i = .vtx nm1 v0 addr ∧ s.loadVertices nm1 v0 addr = .ok u) ∨
    (∃ addr v, i = .dl addr ∧ s.pushReturn = .ok v ∧ u = v.jump (s.resolve addr)) ∨
    (∃ addr, i = .dlNopush addr ∧ u = s.jump (s.resolve addr)) ∨
    (i = .enddl ∧ u = s.popReturn) ∨
    (∃ seg base, i = .mwSegment seg base ∧ u = s.setSegment seg base) ∨
    (∃ v, i = .popmtx ∧ s.popMsp = .ok v ∧ u = v.recomputeFinal) ∨
    (∃ ia ib ic, i = .tri1 ia ib ic ∧ s.drawTriangle ia ib ic = .ok u) ∨
    (∃ sub, i = .noopMovewordOther sub ∧ u = s) ∨
    (∃ opcode, i = .noopUnrecognized opcode ∧ u = s) := by
  cases i with
  | mtx push load proj addr =>
    rw [exec_mtx] at h
    obtain ⟨v, hv, rfl⟩ := map_ok (finish_live h live)
    cases proj
    · exact .inr (.inl ⟨_, _, _, v, rfl, hv, rfl⟩)
    · exact .inl ⟨_, _, _, v, rfl, hv, rfl⟩
  | vtx nm1 v0 addr =>
    rw [exec_vtx] at h
    exact .inr (.inr (.inl ⟨_, _, _, rfl, finish_live h live⟩))
  | dl addr =>
    rw [exec_dl] at h
    obtain ⟨v, hv, rfl⟩ := map_ok (finish_live h live)
    exact .inr (.inr (.inr (.inl ⟨_, v, rfl, hv, rfl⟩)))
  | dlNopush addr => cases h; simp
  | enddl => cases h; simp
  | mwSegment seg base => cases h; simp
  | popmtx =>
    rw [exec_popmtx] at h
    obtain ⟨v, hv, rfl⟩ := map_ok (finish_live h live)
    simp [hv]
  | tri1 ia ib ic =>
    rw [exec_tri1] at h
    simp [finish_live h live]
  | noopMovewordOther sub => cases h; simp
  | noopUnrecognized opcode => cases h; simp

end Sys2Proof.Machine
end

