-- ==== Sys2Proof/Laws/Step.lean ====
section
/-! SUPPORT. What a step can do, said once. -/

namespace Sys2Proof.Machine

/-- A step that answers a state ran a valid configuration's running parse, and either failed before its command,
or its command failed, or its command completed and was counted. -/
theorem step_cases {s t : State} (h : step s = .next t) :
    s.input.valid = true ∧ s.status = .running ∧
      ((∃ err, s.fetchError? = some err ∧ t = s.abort err) ∨
       (s.fetchError? = none ∧ ∃ u, exec s.fetched s.advance = .next u ∧
          ((¬ u.live ∧ t = u) ∨ (u.live ∧ t = u.count)))) := by
  simp only [step, stepWith] at h
  split at h
  · rename_i hvalid
    refine ⟨hvalid, ?_⟩
    split at h
    · cases h
    · cases h
    · rename_i hrun
      refine ⟨hrun, ?_⟩
      split at h
      · rename_i err herr
        exact .inl ⟨err, herr, by simpa using h.symm⟩
      · rename_i hnone
        refine .inr ⟨hnone, ?_⟩
        obtain ⟨u, hu⟩ := exec_answers s.fetched s.advance
        refine ⟨u, hu, ?_⟩
        rw [hu] at h
        simp only [retire] at h
        split at h
        · rename_i err herr
          exact .inl ⟨by simp [State.live, herr], by simpa using h.symm⟩
        · rename_i hu'
          exact .inr ⟨by simp [State.live, hu'], by simpa using h.symm⟩
        · rename_i hu'
          exact .inr ⟨by simp [State.live, hu'], by simpa using h.symm⟩
  · cases h

/-- A step that did not fail executed its command within the budget and the image. -/
theorem step_live {s t : State} (h : step s = .next t) (live : t.live) :
    s.input.valid = true ∧ s.status = .running ∧ s.cmdCount ≠ s.input.maxSteps ∧ s.pc + 8 ≤ s.input.memSize ∧
      ∃ u, exec s.fetched s.advance = .next u ∧ u.live ∧ t = u.count := by
  obtain ⟨hv, hr, ⟨err, -, rfl⟩ | ⟨hf, u, hu, ⟨hn, rfl⟩ | ⟨hl, rfl⟩⟩⟩ := step_cases h
  · exact absurd live (State.abort_not_live _ _)
  · exact absurd live hn
  · refine ⟨hv, hr, ?_, ?_, u, hu, hl, rfl⟩
    · intro heq
      simp [State.fetchError?, heq] at hf
    · simp only [State.fetchError?] at hf
      split at hf
      · cases hf
      · split at hf
        · assumption
        · cases hf

/-- A running parse of a valid configuration, within the budget and the image, executes its command. -/
theorem step_eq_retire {s : State} (hv : s.input.valid = true) (hr : s.status = .running)
    (hb : s.cmdCount ≠ s.input.maxSteps) (hf : s.pc + 8 ≤ s.input.memSize) :
    step s = retire (exec s.fetched s.advance) := by
  simp [step, stepWith, hv, hr, State.fetchError?, hb, hf]

end Sys2Proof.Machine
end

