-- ==== Sys2Proof/Tests/Slice0.lean ====
section
/-! SUPPORT. The model's own tests. Expected results come from the spec: 30_encoding.md R81 and R82, and the vectors
of 95_test_vectors.md that a test names. The witnesses at the end show that no statement's hypotheses are empty. -/

namespace Sys2Proof.Tests

open Machine

/-! ### Well-formedness: each check refuses an ill-formed term -/

theorem test_wf_refuses_segment_sub_opcode : (Instr.noopMovewordOther 0x06).wf = false := by decide

theorem test_wf_refuses_recognised_opcodes :
    ∀ op ∈ recognisedOpcodes, (Instr.noopUnrecognized op).wf = false := by decide

theorem test_wf_accepts_noops :
    (Instr.noopMovewordOther 0x02).wf = true ∧ (Instr.noopUnrecognized 0xC0).wf = true := by decide

/-! ### Decoding and encoding, from R81, R82 and V-E1 to V-E15 -/

theorem test_decode_vtx : decode 0x04200030 0x00000300 = .vtx 2 0 0x300 := by decide
theorem test_decode_vtx_last_register : decode 0x04FF0100 0x00000300 = .vtx 15 15 0x300 := by decide
theorem test_decode_tri1 : decode 0xBFFFFFFF 0xFF000A14 = .tri1 0 10 20 := by decide
theorem test_decode_mtx_projection : decode 0x01030040 0x00000200 = .mtx false true true 0x200 := by decide
theorem test_decode_mtx_push : decode 0x01040040 0x06000040 = .mtx true false false 0x06000040 := by decide
theorem test_decode_mtx_load : decode 0x01020040 0x00000240 = .mtx false true false 0x240 := by decide
theorem test_decode_dl : decode 0x06FEFFFF 0x00000100 = .dl 0x100 := by decide
theorem test_decode_dlNopush : decode 0x06010000 0x00000100 = .dlNopush 0x100 := by decide
theorem test_decode_enddl : decode 0xB8FFFFFF 0xFFFFFFFF = .enddl := by decide
theorem test_decode_segment : decode 0xBC001806 0x00000400 = .mwSegment 6 0x400 := by decide
theorem test_decode_segment_index_bits : decode 0xBC00FF06 0x00000000 = .mwSegment 15 0 := by decide
theorem test_decode_popmtx : decode 0xBDFFFFFF 0x00000001 = .popmtx := by decide
theorem test_decode_moveword_other :
    decode 0xBC001802 0x00000400 = .noopMovewordOther 0x02 ∧ decode 0xBCFFFF07 0xFFFFFFFF = .noopMovewordOther 0x07 := by
  decide
theorem test_decode_unrecognised :
    decode 0xE7000000 0x00000000 = .noopUnrecognized 0xE7 ∧ decode 0xFF000000 0xFFFFFFFF = .noopUnrecognized 0xFF := by
  decide

/-- R81's expansions of the macros. -/
theorem test_encode_macros :
    encode (.vtx 2 0 0x300) = (0x04200030, 0x300) ∧
    encode (.tri1 0 10 20) = (0xBF000000, 0x00000A14) ∧
    encode (.mtx true true false 0x280) = (0x01060040, 0x280) ∧
    encode .popmtx = (0xBD000000, 0) ∧
    encode (.dl 0x06000000) = (0x06000000, 0x06000000) ∧
    encode (.dlNopush 0x06000000) = (0x06010000, 0x06000000) ∧
    encode .enddl = (0xB8000000, 0) ∧
    encode (.mwSegment 6 0x400) = (0xBC001806, 0x400) ∧
    encode (.noopUnrecognized 0xC0) = (0xC0000000, 0) := by decide

theorem test_decodeBytes_big_endian :
    decodeBytes [0x04, 0x20, 0x00, 0x30, 0x00, 0x00, 0x03, 0x00, 0xAA] = .ok (.vtx 2 0 0x300, [0xAA]) := rfl

theorem test_decodeBytes_refuses_short : decodeBytes [0xB8, 0, 0, 0, 0, 0, 0] = .error .truncated := rfl

theorem test_decodeTableWord : decodeTableWord 64 0xBC00000600000000 = some (.mwSegment 0 0) := by decide

/-! ### Arithmetic, in binary64 patterns -/

/-- V-M1 to V-M8: 1, 0.5, -0.5, -2^-16, 2^-16, 32768 - 2^-16, -32768, -1.75. -/
theorem test_fixed_point_elements :
    [(0x0001#16, 0x0000#16), (0x0000#16, 0x8000#16), (0xFFFF#16, 0x8000#16), (0xFFFF#16, 0xFFFF#16),
      (0x0000#16, 0x0001#16), (0x7FFF#16, 0xFFFF#16), (0x8000#16, 0x0000#16), (0xFFFE#16, 0x4000#16)].map
        (fun p => (Binary64.ofFixed (p.1 ++ p.2).toInt).toBits) =
      [0x3FF0000000000000, 0x3FE0000000000000, 0xBFE0000000000000, 0xBEF0000000000000,
        0x3EF0000000000000, 0x40DFFFFFFFC00000, 0xC0E0000000000000, 0xBFFC000000000000] := by decide +kernel

/-- 1 + 2^-53 is a tie and goes to even; (1 + 2^-52) + 2^-53 is a tie and goes up (IEEE 754). -/
theorem test_add_ties_to_even :
    ((Binary64.ofBits 0x3FF0000000000000).add (.ofBits 0x3CA0000000000000)).toBits = 0x3FF0000000000000 ∧
    ((Binary64.ofBits 0x3FF0000000000001).add (.ofBits 0x3CA0000000000000)).toBits = 0x3FF0000000000002 := by decide +kernel

/-- R128: an infinity times zero is NaN, and no comparison with a NaN holds. -/
theorem test_nan :
    (Binary64.inf false).mul .zero = .nan ∧ Config.farZ.lt .nan = false ∧ Binary64.nan.lt .zero = false ∧
      (Binary64.ofInt 320).le .nan = false := by decide +kernel

/-- V-T10, V-T12: a depth of 1 is not above `FarZ`, the next binary64 number is. -/
theorem test_far_plane :
    Config.farZ.lt (.ofInt 1) = false ∧ Config.farZ.lt (.ofBits 0x3FF0000000000001) = true := by decide +kernel

/-! ### Small states -/

/-- An image from runs of bytes. -/
def imageOf (runs : List (Nat × List Byte)) : List Host.Cell :=
  runs.foldl (fun image r => setImageBytes image r.1 r.2) []

/-- The reset state with an image. -/
def withImage (runs : List (Nat × List Byte)) : State := State.start { ParseInput.default with image := imageOf runs }

/-- A vertex with integer coordinates. -/
def at3 (x y z : Int) (src : Nat) : Vertex := ⟨.ofInt x, .ofInt y, .ofInt z, src⟩

/-- Matrices written, three vertices loaded as in V-T1, inside a command at 0x118. -/
def sample : State :=
  { withImage [(0x310, [0, 1])] with
    pc := 0x120
    projMtx := .written identityMtx
    ms := State.reset.ms.set 0 (.written identityMtx)
    finalMtx := .written identityMtx
    vr := ((State.reset.vr.set 0 (.written (at3 160 120 0 0x300))).set 1 (.written (at3 240 120 0 0x310))).set 2
      (.written (at3 160 60 0 0x320)) }

/-- The status a command leaves. -/
def statusAfter (i : Instr) (s : State) : Option Status :=
  match exec i s with
  | .next t => some t.status
  | _ => none

/-- A part of the state a command leaves. -/
def after {α : Type} (i : Instr) (s : State) (f : State → α) : Option α :=
  match exec i s with
  | .next t => some (f t)
  | _ => none

/-! ### One or two steps a command, from section 2 of 95_test_vectors.md -/

/-- V-S3, V-S4. -/
theorem test_resolve :
    ({ State.reset with seg := State.reset.seg.set 6 0x400 } : State).resolve 0xF6000010 = 0x410 ∧
    ({ State.reset with seg := State.reset.seg.set 15 0x1FFFFFFF } : State).resolve 0x0FFFFFFF = 0x20FFFFFE := by decide

/-- V-S6, V-S7. -/
theorem test_reads :
    (withImage [(0x400, [0x12, 0x34, 0x56, 0x78])]).u32At 0x400 = 0x12345678 ∧
    (withImage [(0x400, [0x12, 0x34, 0x56, 0x78])]).u16At 0x401 = 0x3456 ∧
    (withImage [(0x411, [0xFF, 0xFE])]).s16At 0x411 = -2 := by decide

/-- V-S8. -/
theorem test_inImage :
    State.reset.inImage 0xFF0 16 ∧ ¬ State.reset.inImage 0xFF1 16 ∧ State.reset.inImage 0xFC0 64 ∧
      ¬ State.reset.inImage 0xFC1 64 := by decide

/-- V-X9, V-X11. -/
theorem test_mtx_errors :
    statusAfter (.mtx false false false 0x200) State.reset.advance =
      some (.faulted ⟨.uninitializedRead, 0x100, some 0x01⟩) ∧
    statusAfter (.mtx true true false 0x200) { State.reset.advance with msp := 15 } =
      some (.faulted ⟨.stackOverflow, 0x100, some 0x01⟩) := by decide

/-- V-X13: a push with load at `MSP = 14` fills slot 15 with the matrix at its address (here element 12, the halves
at 0x298 and 0x2B8, is 4). -/
theorem test_mtx_push_load :
    after (.mtx true true false 0x280) { withImage [(0x298, [0, 4])] with msp := 14 }
      (fun t => (t.msp, match t.ms[15] with | .written M => some M[3][0].toBits | .unwritten => none)) =
      some (15, some 0x4010000000000000) := by decide +kernel

/-- V-X16, V-X17. -/
theorem test_popmtx :
    statusAfter .popmtx State.reset.advance = some (.faulted ⟨.stackUnderflow, 0x100, some 0xBD⟩) ∧
    after .popmtx { State.reset with msp := 1 } (fun t => (t.msp, t.finalMtx, t.status)) =
      some (0, .unwritten, .running) := by decide

/-- V-V6, V-V7. -/
theorem test_vtx_errors :
    statusAfter (.vtx 0 0 0x300) State.reset.advance = some (.faulted ⟨.uninitializedRead, 0x100, some 0x04⟩) ∧
    statusAfter (.vtx 1 0 0xFE8) sample = some (.faulted ⟨.outOfRange, 0x118, some 0x04⟩) := by decide +kernel

/-- V-V9's record under the identity: the resolved address is the source, and only register 0 is written. -/
theorem test_vtx_loads :
    after (.vtx 0 0 0x06000010) { sample with seg := State.reset.seg.set 6 0x300 } (fun t => (t.vr[0], t.vr[1])) =
      some (.written (at3 1 0 0 0x310), sample.vr[1]) := by decide +kernel

/-- V-T2. -/
theorem test_tri1_emits :
    after (.tri1 20 10 0) sample (fun t => (t.vout, t.fout, t.triCount, t.vtxCount)) =
      some ([at3 160 60 0 0x320, at3 240 120 0 0x310, at3 160 120 0 0x300], [⟨0, 1, 2, 0x118⟩], 1, 3) := by decide +kernel

/-- V-T16, V-T17, V-T15. -/
theorem test_tri1_errors :
    statusAfter (.tri1 5 0 0) State.reset.advance = some (.faulted ⟨.invalidVertexIndex, 0x100, some 0xBF⟩) ∧
    statusAfter (.tri1 0 0 11) State.reset.advance = some (.faulted ⟨.uninitializedRead, 0x100, some 0xBF⟩) ∧
    statusAfter (.tri1 0 10 21) sample = some (.faulted ⟨.invalidVertexIndex, 0x118, some 0xBF⟩) := by decide

/-- V-T3, V-T4, V-T6, V-T7. -/
theorem test_cull :
    cull 320 240 (at3 320 10 0 0) (at3 320 20 0 0) (at3 400 30 0 0) = true ∧
    cull 320 240 ⟨.ofBits 0x4073F80000000000, .ofInt 10, .zero, 0⟩ (at3 320 20 0 0) (at3 400 30 0 0) = false ∧
    cull 320 240 (at3 0 10 0 0) (at3 (-1) 20 0 0) (at3 (-2) 30 0 0) = false ∧
    cull 320 240 (at3 (-10) 10 0 0) (at3 400 20 0 0) (at3 500 30 0 0) = false := by decide +kernel

/-- V-T8, V-T9. -/
theorem test_cull_vertical :
    cull 320 240 (at3 10 240 0 0) (at3 20 300 0 0) (at3 30 241 0 0) = true ∧
    cull 320 240 (at3 10 (-1) 0 0) (at3 20 (-5) 0 0) ⟨.ofInt 30, .ofBits 0xBFD0000000000000, .zero, 0⟩ = true := by decide +kernel

/-- V-C1, V-C5. -/
theorem test_dl :
    after (.dl 0x06000000) { State.reset with pc := 0x118, seg := State.reset.seg.set 6 0x400 }
      (fun t => (t.js[0], t.jsp, t.pc)) = some (0x118, 1, 0x400) ∧
    statusAfter (.dl 0x100) { State.reset.advance with jsp := 16 } =
      some (.faulted ⟨.stackOverflow, 0x100, some 0x06⟩) := by decide

/-- V-C2, V-C6. -/
theorem test_dlNopush :
    after (.dlNopush 0x06000000) { State.reset with seg := State.reset.seg.set 6 0x400 } (fun t => (t.jsp, t.pc)) =
      some (0, 0x400) ∧
    after (.dlNopush 0x100) { State.reset.advance with jsp := 16 } (fun t => (t.jsp, t.pc, t.status)) =
      some (16, 0x100, .running) := by decide

/-- V-C3, V-C4. -/
theorem test_enddl :
    after .enddl { State.reset with jsp := 2, js := (State.reset.js.set 0 0x118).set 1 0x408 } (fun t => (t.jsp, t.pc)) =
      some (1, 0x408) ∧
    after .enddl State.reset (fun t => t.status) = some .done := by decide

/-- V-N1, V-N2. -/
theorem test_segment :
    after (.mwSegment 6 0x80000400) State.reset (fun t => t.seg[6]) = some 0x400 ∧
    after (.mwSegment 6 0xFFFFFFFF) State.reset (fun t => t.seg[6]) = some 0x1FFFFFFF := by decide

/-- V-N4. -/
theorem test_noop_step :
    step (State.reset.withFetchWord 64 0xE700000000000000) =
      .next { State.reset.withFetchWord 64 0xE700000000000000 with pc := 0x108, cmdCount := 1 } := rfl

/-- V-B1. -/
theorem test_enddl_step :
    step (State.reset.withFetchWord 64 0xB800000000000000) =
      .next { State.reset.withFetchWord 64 0xB800000000000000 with pc := 0x108, cmdCount := 1, status := .done } := rfl

/-- V-E2, V-E3 and R166: the last whole command of the image is fetched, the one straddling its end is not, and the
budget comes first. -/
theorem test_fetch_checks :
    ({ State.reset with pc := 0xFF8 } : State).fetchError? = none ∧
    ({ State.reset with pc := 0xFFC } : State).fetchError? = some ⟨.outOfRange, 0xFFC, none⟩ ∧
    ({ State.reset with pc := 0xFFC, cmdCount := 100 } : State).fetchError? = some ⟨.unboundedExecution, 0xFFC, none⟩ := by
  decide

/-- The codes of R161. -/
theorem test_error_codes :
    [ErrorKind.outOfRange, .stackOverflow, .stackUnderflow, .unboundedExecution, .uninitializedRead,
      .invalidVertexIndex].map ErrorKind.code = [1, 2, 3, 4, 5, 6] := rfl

/-- R31 for 320 by 240: rows [160,0,0,0] [0,-120,0,0] [0,0,1,0] [160,120,0,1]. -/
theorem test_screenMatrix :
    screenMatrix 320 240 =
      #v[#v[.ofInt 160, .zero, .zero, .zero], #v[.zero, .ofInt (-120), .zero, .zero], #v[.zero, .zero, .one, .zero],
        #v[.ofInt 160, .ofInt 120, .zero, .one]] := by decide +kernel

/-- 95 section 2.1: `(1, 0, 0)` under `F1` is `(240, 120, 0)`. -/
theorem test_xform :
    (fun (F : Mtx) => [0, 1, 2, 3].map (xform (.ofInt 1) .zero .zero F))
      #v[#v[.ofInt 80, .zero, .zero, .zero], #v[.zero, .ofInt (-60), .zero, .zero],
        #v[.zero, .zero, .half, .zero], #v[.ofInt 160, .ofInt 120, .zero, .one]] =
      [.ofInt 240, .ofInt 120, .zero, .one] := by decide +kernel

/-- V-X4, row 3 of `MatMul(D, T)`: the new matrix stands on the left, so its element 0 is 4 and not 2. -/
theorem test_matMul_order :
    (fun (D T : Mtx) => ((matMul D T)[3][0], (matMul T D)[3][0]))
      (Mtx.ofElements fun k => if k = 15 then .one else if k.val % 5 = 0 then .half else .zero)
      (Mtx.ofElements fun k => if k = 12 then .ofInt 4 else if k.val % 5 = 0 then .one else .zero) =
      (.ofInt 4, .ofInt 2) := by decide +kernel

/-! ### Witnesses: concrete states and operands that meet each statement's hypotheses, clause by clause -/

/-- The status a step leaves. -/
def statusAfterStep (s : State) : Option Status :=
  match step s with
  | .next t => some t.status
  | _ => none

theorem exists_of_statusAfterStep {s : State} {st : Status} (h : statusAfterStep s = some st) :
    ∃ t, step s = .next t ∧ t.status = st := by
  unfold statusAfterStep at h
  split at h
  · rename_i t ht
    exact ⟨t, ht, by simpa using h⟩
  · cases h

theorem exists_of_statusAfter {i : Instr} {s : State} {st : Status} (h : statusAfter i s = some st) :
    ∃ t, exec i s = .next t ∧ t.status = st := by
  unfold statusAfter at h
  split at h
  · rename_i t ht
    exact ⟨t, ht, by simpa using h⟩
  · cases h

/-- A command that completes on a running state leaves it live. -/
theorem live_of_statusAfter {i : Instr} {s : State} (h : statusAfter i s = some .running) :
    ∃ t, exec i s = .next t ∧ t.live := by
  obtain ⟨t, h1, h2⟩ := exists_of_statusAfter h
  exact ⟨t, h1, by rw [State.live, h2]; rfl⟩

theorem live_of_statusAfterStep {s : State} (h : statusAfterStep s = some .running) :
    ∃ t, step s = .next t ∧ t.live := by
  obtain ⟨t, h1, h2⟩ := exists_of_statusAfterStep h
  exact ⟨t, h1, by rw [State.live, h2]; rfl⟩

/-- Reset with a command placed. -/
abbrev placed (w : Nat) : State := State.reset.withFetchWord 64 w

/-- A state of the invariant whose next command draws the triangle of registers 0, 1 and 2. -/
def drawing : State :=
  { placed 0xBF00000000000A14 with
    vr := ((State.reset.vr.set 0 (.written (at3 160 120 0 0x300))).set 1 (.written (at3 240 120 0 0x310))).set 2
      (.written (at3 160 60 0 0x320)) }

theorem placed_noop_inv : (placed 0xE700000000000000).Inv :=
  ⟨rfl, rfl, rfl, rfl, fun _ h => absurd h (Nat.not_lt_zero _), Nat.le_refl 0, Nat.zero_le 100,
    (by decide : 0x100 ≤ 4294967296), fun _ h => absurd h (Nat.not_lt_zero _)⟩

theorem drawing_inv : drawing.Inv :=
  ⟨rfl, rfl, rfl, rfl, fun _ h => absurd h (Nat.not_lt_zero _), Nat.le_refl 0, Nat.zero_le 100,
    (by decide : 0x100 ≤ 4294967296), fun _ h => absurd h (Nat.not_lt_zero _)⟩

theorem drawing_steps : ∃ t, step drawing = .next t ∧ t.live :=
  live_of_statusAfterStep (by decide +kernel)

theorem witness_DecodeEncodeRoundTrip :
    ∀ i ∈ [Instr.mtx true true true 0xFFFFFFFF, .vtx 15 15 0, .dl 0, .dlNopush 0, .enddl, .mwSegment 15 0xFFFFFFFF,
      .popmtx, .tri1 255 0 250, .noopMovewordOther 0x05, .noopMovewordOther 0x07, .noopUnrecognized 0x00,
      .noopUnrecognized 0xC0], i.wf = true := by decide

theorem witness_DecodeBytesRoundTrip : (Instr.tri1 0 10 20).wf = true ∧ (Instr.noopMovewordOther 0xFF).wf = true := by
  decide

theorem witness_UnrecognisedDecodesAsNoop :
    field (0x02000000 : Word) 24 8 ∉ recognisedOpcodes ∧ field (0xBE000006 : Word) 24 8 ∉ recognisedOpcodes ∧
    field (0xBC000005 : Word) 24 8 = 0xBC ∧ field (0xBC000005 : Word) 0 8 ≠ 0x06 := by decide

/-- Words that differ in ignored bits only, one pair for each clause; the second words are equal unless shown. -/
theorem witness_IgnoredFieldsAreDontCare :
    (field (0x01FAFFFF : Word) 24 8 = field (0x01020040 : Word) 24 8 ∧ field (0x01020040 : Word) 24 8 = 0x01 ∧
      field (0x01FAFFFF : Word) 16 3 = field (0x01020040 : Word) 16 3) ∧
    (field (0x0420FFFF : Word) 24 8 = field (0x04200030 : Word) 24 8 ∧ field (0x04200030 : Word) 24 8 = 0x04 ∧
      field (0x0420FFFF : Word) 16 8 = field (0x04200030 : Word) 16 8) ∧
    (field (0x06FEFFFF : Word) 24 8 = field (0x06000000 : Word) 24 8 ∧ field (0x06000000 : Word) 24 8 = 0x06 ∧
      bit (0x06FEFFFF : Word) 16 = bit (0x06000000 : Word) 16) ∧
    (field (0xB8FFFFFF : Word) 24 8 = field (0xB8000000 : Word) 24 8 ∧ field (0xB8000000 : Word) 24 8 = 0xB8) ∧
    (field (0xBCFFDB06 : Word) 24 8 = field (0xBC001806 : Word) 24 8 ∧ field (0xBC001806 : Word) 24 8 = 0xBC ∧
      field (0xBCFFDB06 : Word) 0 8 = 0x06 ∧ field (0xBC001806 : Word) 0 8 = 0x06 ∧
      field (0xBCFFDB06 : Word) 10 4 = field (0xBC001806 : Word) 10 4) ∧
    (field (0xBDFFFFFF : Word) 24 8 = field (0xBD000000 : Word) 24 8 ∧ field (0xBD000000 : Word) 24 8 = 0xBD) ∧
    (field (0xBFFFFFFF : Word) 24 8 = field (0xBF000000 : Word) 24 8 ∧ field (0xBF000000 : Word) 24 8 = 0xBF ∧
      field (0xFF000A14 : Word) 0 24 = field (0x00000A14 : Word) 0 24) := by decide

/-- The domains' lower ends, and the upper end of `MemSize`. -/
theorem witness_ParseStartState :
    (fun inp : ParseInput => 1 ≤ inp.memSize ∧ inp.memSize ≤ 2 ^ 32 ∧ 1 ≤ inp.width ∧ 1 ≤ inp.height ∧ 1 ≤ inp.maxSteps)
      ⟨[], 1, 0, 1, 1, 1⟩ ∧
    (fun inp : ParseInput => 1 ≤ inp.memSize ∧ inp.memSize ≤ 2 ^ 32 ∧ 1 ≤ inp.width ∧ 1 ≤ inp.height ∧ 1 ≤ inp.maxSteps)
      ⟨[], 4294967296, 0x100, 320, 240, 100⟩ := by decide

theorem witness_StepRunsDecodedCommand :
    (placed 0xB800000000000000).input.valid = true ∧ (placed 0xB800000000000000).status = .running ∧
    (placed 0xB800000000000000).cmdCount ≠ (placed 0xB800000000000000).input.maxSteps ∧
    (placed 0xB800000000000000).pc + 8 ≤ (placed 0xB800000000000000).input.memSize ∧
    decodeBytes ((List.range 8).map fun k =>
      imageByte (placed 0xB800000000000000).input.image ((placed 0xB800000000000000).pc + k)) = .ok (.enddl, []) :=
  ⟨rfl, rfl, by decide, by decide, rfl⟩

theorem witness_BudgetEndsParse :
    (fun s : State => s.input.valid = true ∧ s.status = .running ∧ s.cmdCount = s.input.maxSteps)
      { State.reset with cmdCount := 100 } := ⟨rfl, rfl, rfl⟩

/-- The last byte of the command is the first one past the image. -/
theorem witness_FetchPastImageRaises :
    (fun s : State => s.input.valid = true ∧ s.status = .running ∧ s.cmdCount ≠ s.input.maxSteps ∧
      s.input.memSize < s.pc + 8) { State.reset with pc := 0xFF9 } := ⟨rfl, rfl, by decide, by decide⟩

/-- Each disjunct, the others failing. -/
theorem witness_InvalidConfigurationRefused :
    (State.start { ParseInput.default with width := 0 }).input.width = 0 ∧
    (State.start { ParseInput.default with height := 0 }).input.height = 0 ∧
    (State.start { ParseInput.default with maxSteps := 0 }).input.maxSteps = 0 ∧
    (State.start { ParseInput.default with memSize := 0 }).input.memSize = 0 ∧
    4294967296 < (State.start { ParseInput.default with memSize := 4294967297 }).input.memSize :=
  ⟨rfl, rfl, rfl, rfl, by decide⟩

theorem witness_RunningStepAnswers : State.reset.input.valid = true ∧ State.reset.status = .running := ⟨rfl, rfl⟩

/-- At the start of a parse and at the end of its budget. -/
theorem witness_ParseEndsWithinBudget :
    (State.reset.input.valid = true ∧ State.reset.status = .running ∧ State.reset.cmdCount ≤ State.reset.input.maxSteps) ∧
    (fun s : State => s.input.valid = true ∧ s.status = .running ∧ s.cmdCount ≤ s.input.maxSteps)
      { State.reset with cmdCount := 100 } :=
  ⟨⟨rfl, rfl, by decide⟩, rfl, rfl, Nat.le_refl 100⟩

theorem witness_AbortIsFinal :
    ∃ t, step (placed 0xBD00000000000000) = .next t ∧ t.status = .faulted ⟨.stackUnderflow, 0x100, some 0xBD⟩ :=
  exists_of_statusAfterStep rfl

theorem witness_DoneIsFinal : ∃ t, step (placed 0xB800000000000000) = .next t ∧ t.status = .done :=
  exists_of_statusAfterStep rfl

/-- A step that completes and a step that raises. -/
theorem witness_StepKeepsConfiguration :
    (∃ t, step (placed 0xE700000000000000) = .next t) ∧ ∃ t, step (placed 0xBD00000000000000) = .next t :=
  ⟨⟨_, rfl⟩, _, rfl⟩

/-- A command that goes on and the one that ends the parse. -/
theorem witness_CompletedCommandCounted :
    (∃ t, step (placed 0xE700000000000000) = .next t ∧ t.live) ∧ ∃ t, step (placed 0xB800000000000000) = .next t ∧ t.live :=
  ⟨⟨_, rfl, rfl⟩, _, rfl, rfl⟩

theorem witness_StraightStepAdvancesPc :
    (∃ t, step (placed 0xBC00180600000400) = .next t ∧ t.live) ∧
    isStraight (placed 0xBC00180600000400).fetched = true := ⟨⟨_, rfl, rfl⟩, rfl⟩

/-- The last bytes of the image, and one byte further. -/
theorem witness_MemReadBigEndian :
    0xFFE + 2 ≤ State.reset.input.memSize ∧ 0xFFC + 4 ≤ State.reset.input.memSize ∧
    State.reset.input.memSize < 0xFFF + 2 ∧ State.reset.input.memSize < 0xFFD + 4 := by decide

theorem witness_SegmentedAddressResolves :
    (15 : Fin 16).val = (0xFF000010 : Word).toNat / 16777216 % 16 ∧
    (0 : Fin 16).val = (0xF0FFFFFF : Word).toNat / 16777216 % 16 := by decide

/-- A set segment of 6, then a step that executes no set segment of 6. -/
theorem witness_SegmentBaseStaysInForce :
    ∃ t u, exec (.mwSegment 6 0x80000400) (placed 0xE700000000000000) = .next t ∧ StepsKeeping 6 t u ∧ u.live ∧
      field (0xF6000010 : Word) 24 4 = 6 ∧ u.cmdCount = 1 :=
  ⟨_, _, rfl, .tail (.refl _) rfl (fun _ h => by cases h), rfl, by decide, rfl⟩

theorem witness_SetSegmentFrame :
    (∃ t, exec (.mwSegment 6 0x400) State.reset = .next t) ∧ (7 : Fin 16).val ≠ (6 : BitVec 4).toNat :=
  ⟨⟨_, rfl⟩, by decide⟩

theorem witness_NoopOnlyAdvances :
    (fun s : State => s.input.valid = true ∧ s.status = .running ∧ s.cmdCount ≠ s.input.maxSteps ∧
      s.pc + 8 ≤ s.input.memSize ∧ field (s.u32At s.pc) 24 8 = 0xBC ∧ field (s.u32At s.pc) 0 8 ≠ 0x06)
      (placed 0xBC00180200000400) ∧
    (fun s : State => s.input.valid = true ∧ s.status = .running ∧ s.cmdCount ≠ s.input.maxSteps ∧
      s.pc + 8 ≤ s.input.memSize ∧ field (s.u32At s.pc) 24 8 ∉ recognisedOpcodes) (placed 0xE700000000000000) := by
  decide

/-- One record that ends where the image ends, and sixteen. -/
theorem witness_LoadVerticesWritesRegisters :
    sample.finalMtx = .written identityMtx ∧
    sample.resolve 0xFF0 + 16 * ((0 : BitVec 4).toNat + 1) ≤ sample.input.memSize ∧
    sample.resolve 0xF00 + 16 * ((15 : BitVec 4).toNat + 1) ≤ sample.input.memSize :=
  ⟨rfl, by decide, by decide⟩

theorem witness_LoadVerticesErrors :
    State.reset.finalMtx = .unwritten ∧ sample.finalMtx ≠ .unwritten ∧
    sample.input.memSize < sample.resolve 0xFF1 + 16 * ((0 : BitVec 4).toNat + 1) :=
  ⟨rfl, (fun h => by cases h), by decide⟩

theorem witness_LoadVerticesFrame : ∃ t, exec (.vtx 15 15 0xF00) sample = .next t ∧ t.live :=
  live_of_statusAfter (by decide +kernel)

/-- Registers 0, 1 and 2 of `sample`: the triangle passes both tests. -/
theorem witness_TriangleEmits :
    sample.vr[0] = .written (at3 160 120 0 0x300) ∧ sample.vr[1] = .written (at3 240 120 0 0x310) ∧
    sample.vr[2] = .written (at3 160 60 0 0x320) ∧
    depthReject (at3 160 120 0 0x300) (at3 240 120 0 0x310) (at3 160 60 0 0x320) = false ∧
    cull 320 240 (at3 160 120 0 0x300) (at3 240 120 0 0x310) (at3 160 60 0 0x320) = false := by decide +kernel

/-- Registers 0 to 2 are rejected by a depth of 2; registers 1 to 3, at the far plane at most, are culled at x = 320. -/
theorem witness_TriangleSuppressed :
    (fun s : State => s.vr[0] = .written (at3 1 1 2 0) ∧ s.vr[1] = .written (at3 320 2 0 0) ∧
      s.vr[2] = .written (at3 320 3 0 0) ∧ s.vr[3] = .written (at3 320 4 1 0))
      { sample with
        vr := (((sample.vr.set 0 (.written (at3 1 1 2 0))).set 1 (.written (at3 320 2 0 0))).set 2
          (.written (at3 320 3 0 0))).set 3 (.written (at3 320 4 1 0)) } ∧
    depthReject (at3 1 1 2 0) (at3 320 2 0 0) (at3 320 3 0 0) = true ∧
    cull 320 240 (at3 320 2 0 0) (at3 320 3 0 0) (at3 320 4 1 0) = true := by decide +kernel

/-- The first, second and third index byte in error, the earlier ones good. -/
theorem witness_TriangleIndexErrors :
    (sample.indexError? 5).or ((sample.indexError? 30).or (sample.indexError? 0)) = some .invalidVertexIndex ∧
    (sample.indexError? 0).or ((sample.indexError? 250).or (sample.indexError? 1)) = some .uninitializedRead ∧
    (sample.indexError? 0).or ((sample.indexError? 20).or (sample.indexError? 255)) = some .invalidVertexIndex := by
  decide +kernel

theorem witness_TriangleFrame : ∃ t, exec (.tri1 0 10 20) sample = .next t ∧ t.live :=
  live_of_statusAfter (by decide +kernel)

theorem witness_CullMeansSameSideOutside : (320 : Nat) ≤ 2 ^ 53 ∧ (2 ^ 53 : Nat) ≤ 2 ^ 53 := by decide

/-- 1, 2^-53 and, as another number, 1 + 2^-52: the exact sum lies midway between 1 and the third. Then the largest
number twice, and an infinity as the third. -/
theorem witness_AddRoundsToNearestEven :
    (fun a b c : Binary64 => isFiniteNum a = true ∧ isFiniteNum b = true ∧
      a.key?.isSome = true ∧ b.key?.isSome = true ∧ c.key?.isSome = true ∧ c ≠ a.add b)
      .one (.ofBits 0x3CA0000000000000) (.ofBits 0x3FF0000000000001) ∧
    (fun a b c : Binary64 => isFiniteNum a = true ∧ isFiniteNum b = true ∧
      a.key?.isSome = true ∧ b.key?.isSome = true ∧ c.key?.isSome = true)
      (.ofBits 0x7FEFFFFFFFFFFFFF) (.ofBits 0x7FEFFFFFFFFFFFFF) (.inf false) := by decide +kernel

/-- An exact zero sum of 1 and -1, and of two negative zeros. -/
theorem witness_AddRoundsToNearestEven_zero :
    (∃ x y, Binary64.one.key? = some x ∧ (Binary64.finite true 1023 0).key? = some y ∧ x + y = 0) ∧
    ∃ x y, (Binary64.finite true 0 0).key? = some x ∧ (Binary64.finite true 0 0).key? = some y ∧ x + y = 0 :=
  ⟨⟨2 ^ 1074, -2 ^ 1074, by decide +kernel, by decide +kernel, by decide +kernel⟩, 0, 0, rfl, rfl, rfl⟩

theorem witness_MulRoundsToNearestEven :
    (fun a b c : Binary64 => isFiniteNum a = true ∧ isFiniteNum b = true ∧
      a.key?.isSome = true ∧ b.key?.isSome = true ∧ c.key?.isSome = true ∧ c ≠ a.mul b)
      (.ofBits 0x3FF0000000000001) (.ofBits 0x3FF8000000000000) (.ofBits 0x3FF8000000000001) ∧
    (fun a b c : Binary64 => isFiniteNum a = true ∧ isFiniteNum b = true ∧
      a.key?.isSome = true ∧ b.key?.isSome = true ∧ c.key?.isSome = true)
      (.ofBits 0x7FEFFFFFFFFFFFFF) (.ofBits 0xFFEFFFFFFFFFFFFF) (.inf true) ∧
    Binary64.zero.key? = some 0 ∧ (Binary64.ofBits 0x0000000000000001).key? = some 1 := by decide +kernel

/-- The largest number twice is past the range, and half a unit in the last place below the range's end rounds to an
infinity (IEEE 754); so does a product past the range. -/
theorem test_overflow :
    (Binary64.ofBits 0x7FEFFFFFFFFFFFFF).add (.ofBits 0x7FEFFFFFFFFFFFFF) = .inf false ∧
    (Binary64.ofBits 0x7FEFFFFFFFFFFFFF).add (.ofBits 0x7C90000000000000) = .inf false ∧
    (Binary64.ofBits 0x7FEFFFFFFFFFFFFF).add (.ofBits 0x7C8FFFFFFFFFFFFF) = .ofBits 0x7FEFFFFFFFFFFFFF ∧
    (Binary64.ofBits 0x7FEFFFFFFFFFFFFF).mul (.ofBits 0xC000000000000000) = .inf true := by decide +kernel

theorem representable_of_key {c : Binary64} {k q : Int} (h1 : isFiniteNum c = true) (h2 : c.key? = some k)
    (h3 : k * 2 ^ 1074 = q) : representable q := ⟨c, k, h1, h2, h3⟩

/-- Two matrices of ones: the products are 1, the partial sums 2, 3 and 4. -/
theorem witness_MatrixProductFollowsRowsAndColumns :
    (fun (A B : Mtx) (a b : Fin 4 → Int) =>
      (∀ k : Fin 4, isFiniteNum A[(0 : Fin 4)][k] = true ∧ A[(0 : Fin 4)][k].key? = some (a k)) ∧
      (∀ k : Fin 4, isFiniteNum B[k][(0 : Fin 4)] = true ∧ B[k][(0 : Fin 4)].key? = some (b k)) ∧
      (∀ k : Fin 4, representable (a k * b k)) ∧ representable (a 0 * b 0 + a 1 * b 1) ∧
      representable (a 0 * b 0 + a 1 * b 1 + a 2 * b 2) ∧
      representable (a 0 * b 0 + a 1 * b 1 + a 2 * b 2 + a 3 * b 3))
      (Mtx.ofElements fun _ => .one) (Mtx.ofElements fun _ => .one) (fun _ => 2 ^ 1074) (fun _ => 2 ^ 1074) :=
  ⟨by decide +kernel, by decide +kernel,
    fun k => representable_of_key (c := .ofInt 1) (k := 1 * 2 ^ 1074) (by decide +kernel) (by decide +kernel)
      (by revert k; decide +kernel),
    representable_of_key (c := .ofInt 2) (k := 2 * 2 ^ 1074) (by decide +kernel) (by decide +kernel) (by decide +kernel),
    representable_of_key (c := .ofInt 3) (k := 3 * 2 ^ 1074) (by decide +kernel) (by decide +kernel) (by decide +kernel),
    representable_of_key (c := .ofInt 4) (k := 4 * 2 ^ 1074) (by decide +kernel) (by decide +kernel) (by decide +kernel)⟩

theorem witness_ScreenMatrixExact : (2 ^ 52 - 1 : Nat) < 2 ^ 52 ∧ (240 : Nat) < 2 ^ 52 := by decide

theorem witness_IdentityMultiplyExact : ∀ r c : Fin 4, isFiniteNum identityMtx[r][c] = true := by decide +kernel

theorem witness_NoOverflowAfterLoads : (320 : Nat) < 2 ^ 52 ∧ (2 ^ 52 - 1 : Nat) < 2 ^ 52 := by decide

theorem mtxAt_holds (s : State) (a : Nat) : holdsMtx s a (s.mtxAt a) := by
  intro r c
  simp [State.mtxAt, Mtx.ofElements, State.fixedAt]

/-- A matrix that ends where the image ends. -/
theorem witness_ProjectionMatrixOp :
    sample.resolve 0xFC0 + 64 ≤ sample.input.memSize ∧ holdsMtx sample (sample.resolve 0xFC0) (sample.mtxAt 0xFC0) ∧
    sample.projMtx = .written identityMtx :=
  ⟨by decide, mtxAt_holds sample 0xFC0, rfl⟩

/-- Slot 0 without a push, slot 15 with one. -/
theorem witness_ModelviewMatrixOp :
    sample.resolve 0xFC0 + 64 ≤ sample.input.memSize ∧ holdsMtx sample (sample.resolve 0xFC0) (sample.mtxAt 0xFC0) ∧
    (0 : Fin 16).val = sample.msp.val + false.toNat ∧ sample.ms[(0 : Fin 16)] = .written identityMtx ∧
    (15 : Fin 16).val = ({ sample with msp := 14 } : State).msp.val + true.toNat :=
  ⟨by decide, mtxAt_holds sample 0xFC0, rfl, rfl, rfl⟩

theorem witness_MatrixOpErrors :
    ({ State.reset with msp := 15 } : State).msp.val = 15 ∧
    (({ State.reset with msp := 14 } : State).msp.val + true.toNat < 16 ∧
      State.reset.input.memSize < ({ State.reset with msp := 14 } : State).resolve 0xFC1 + 64) ∧
    (State.reset.resolve 0xFC0 + 64 ≤ State.reset.input.memSize ∧ State.reset.projMtx = .unwritten) ∧
    ((1 : Fin 16).val = sample.msp.val + true.toNat ∧ sample.resolve 0xFC0 + 64 ≤ sample.input.memSize ∧
      sample.ms[(1 : Fin 16)] = .unwritten) :=
  ⟨rfl, ⟨by decide, by decide⟩, ⟨by decide, rfl⟩, rfl, by decide, rfl⟩

theorem witness_PopMatrix :
    ({ State.reset with msp := 1 } : State).msp.val = (0 : Fin 16).val + 1 ∧
    ({ State.reset with msp := 15 } : State).msp.val = (14 : Fin 16).val + 1 ∧ State.reset.msp.val = 0 :=
  ⟨rfl, rfl, rfl⟩

theorem witness_MatrixCommandsFrame :
    (∃ t, exec (.mtx true false true 0xFC0) sample = .next t ∧ t.live) ∧
    (∃ t, exec (.mtx true true false 0xFC0) sample = .next t ∧ t.live) ∧
    ∃ t, exec .popmtx { sample with msp := 1 } = .next t ∧ t.live :=
  ⟨⟨_, rfl, rfl⟩, ⟨_, rfl, rfl⟩, _, rfl, rfl⟩

/-- With the top and the projection written, and with the top `Unwritten`. -/
theorem witness_FinalMatrixNeverStale :
    (∃ t, exec (.mtx false true true 0xFC0) sample = .next t ∧ t.live ∧
      t.ms[t.msp] = .written identityMtx ∧ t.projMtx = .written (sample.mtxAt 0xFC0)) ∧
    ∃ t, exec .popmtx { State.reset with msp := 2 } = .next t ∧ t.live ∧ t.ms[t.msp] = .unwritten :=
  ⟨⟨_, rfl, rfl, rfl, rfl⟩, _, rfl, rfl, rfl⟩

/-- From index 14, the last that a push leaves, with the final matrix fresh. -/
theorem witness_PushThenPopRestores :
    (∃ t, exec (.mtx true true false 0xFC0) { State.reset with msp := 14 } = .next t ∧ t.live) ∧
    (fun s : State => s.finalMtx = finalOf s.ms[s.msp] s.projMtx s.screenMtx) { State.reset with msp := 14 } :=
  ⟨⟨_, rfl, rfl⟩, rfl⟩

theorem witness_BranchCall :
    State.reset.jsp.val = (0 : Fin 16).val ∧ ({ State.reset with jsp := 15 } : State).jsp.val = (15 : Fin 16).val ∧
    ({ State.reset with jsp := 16 } : State).jsp.val = 16 := ⟨rfl, rfl, rfl⟩

theorem witness_ReturnPopsOrEnds :
    ({ State.reset with jsp := 1 } : State).jsp.val = (0 : Fin 16).val + 1 ∧
    ({ State.reset with jsp := 16 } : State).jsp.val = (15 : Fin 16).val + 1 ∧ State.reset.jsp.val = 0 := ⟨rfl, rfl, rfl⟩

theorem witness_ControlFrame :
    (isStraight (.dl 0x400) = false ∧ ∃ t, exec (.dl 0x400) sample = .next t ∧ t.live) ∧
    (isStraight (.dlNopush 0x400) = false ∧ ∃ t, exec (.dlNopush 0x400) sample = .next t ∧ t.live) ∧
    (isStraight .enddl = false ∧ ∃ t, exec .enddl { sample with jsp := 1 } = .next t ∧ t.live) :=
  ⟨⟨rfl, _, rfl, rfl⟩, ⟨rfl, _, rfl, rfl⟩, rfl, _, rfl, rfl⟩

/-- A call, a tail branch and a nested call, filling the stack from a depth of 14. -/
theorem witness_NestedCallsReturnToCaller :
    (fun (s : State) (path : List (Bool × Word)) => s.jsp.val + (1 + path.countP fun p => p.1) ≤ 16)
      { State.reset with jsp := 14 } [(false, 0x400), (true, 0x06000000)] := by decide

/-- A command's error, and an error of a step before its command. -/
theorem witness_CommandErrorsByTable :
    (State.reset.live ∧
      ∃ t, exec .popmtx State.reset = .next t ∧ t.status = .faulted ⟨.stackUnderflow, 0xF8, some 0xBD⟩) ∧
    (∃ t, step { State.reset with pc := 0xFF9 } = .next t ∧ t.status = .faulted ⟨.outOfRange, 0xFF9, none⟩) :=
  ⟨⟨rfl, _, rfl, rfl⟩, exists_of_statusAfterStep (by decide +kernel)⟩

theorem witness_InvariantAtStart : ParseInput.default.startAddr ≤ 4294967296 := by decide

theorem witness_StepKeepsInvariant :
    ((placed 0xE700000000000000).Inv ∧ ∃ t, step (placed 0xE700000000000000) = .next t ∧ t.live) ∧
    drawing.Inv ∧ ∃ t, step drawing = .next t ∧ t.live :=
  ⟨⟨placed_noop_inv, _, rfl, rfl⟩, drawing_inv, drawing_steps⟩

theorem witness_StepKeepsSurvivorsOnly :
    drawing.Inv ∧ drawing.survivorsOnly ∧ ∃ t, step drawing = .next t ∧ t.live :=
  ⟨drawing_inv, (fun _ h => absurd h (Nat.not_lt_zero _)), drawing_steps⟩

theorem witness_OutputsAppendOnly : ∃ t, step drawing = .next t ∧ t.live := drawing_steps

/-- Two states that differ in the source address of register 0. -/
theorem witness_SourceAddressesDecideNothing :
    drawing.eraseSrc = ({ drawing with vr := drawing.vr.set 0 (.written (at3 160 120 0 0x777)) } : State).eraseSrc ∧
    ∃ t, step drawing = .next t ∧ t.live :=
  ⟨by decide +kernel, drawing_steps⟩

/-- Two states that differ in a dead slot, the one a call would fill next. -/
theorem witness_DeadReturnSlotsUnread :
    (placed 0x0600000000000400).agreeLive { placed 0x0600000000000400 with js := State.reset.js.set 0 0x777 } ∧
    ∃ t, step (placed 0x0600000000000400) = .next t ∧ t.live :=
  ⟨⟨rfl, fun _ h => absurd h (Nat.not_lt_zero _)⟩, _, rfl, rfl⟩

end Sys2Proof.Tests
end

section
/-! SUPPORT. What a completed command may have written, said once, and what follows for a step: the rules that the
state statements (10_state.md) are proved from. -/

namespace Sys2Proof.Machine

/-! ### A command as its pseudocode -/

/-- The pseudocode of a command up to its first error; `exec_eq_finish` ties it to `exec`. -/
def effect (i : Instr) (s : State) : Except ErrorKind State :=
  match i with
  | .mtx push load proj addr =>
    (if proj then s.mtxProjection load addr else s.mtxModelview push load addr).map State.recomputeFinal
  | .vtx nm1 v0 addr => s.loadVertices nm1 v0 addr
  | .dl addr => s.pushReturn.map fun t => t.jump (s.resolve addr)
  | .dlNopush addr => .ok (s.jump (s.resolve addr))
  | .enddl => .ok s.popReturn
  | .mwSegment seg base => .ok (s.setSegment seg base)
  | .popmtx => s.popMsp.map State.recomputeFinal
  | .tri1 ia ib ic => s.drawTriangle ia ib ic
  | .noopMovewordOther _ => .ok s
  | .noopUnrecognized _ => .ok s

theorem exec_eq_finish (i : Instr) (s : State) : exec i s = finish i.opcode s (effect i s) := by
  cases i <;> rfl

/-- What a completed command may have written; the flag says whether the command is straight (`isStraight`). -/
inductive Writes (s : State) : Bool → State → Prop
  | nothing : Writes s true s
  | matrices (ms : Vector (Slot Mtx) 16) (msp : Fin 16) (P : Slot Mtx) :
      Writes s true (State.recomputeFinal { s with ms := ms, msp := msp, projMtx := P })
  | registers (vr : Vector (Slot Vertex) 64) : Writes s true { s with vr := vr }
  | triangle (A B C : Vertex) (passed : s.suppressed A B C = false) : Writes s true (s.emit A B C)
  | segment (k : BitVec 4) (b : Word) : Writes s true (s.setSegment k b)
  | call (a : Word) (room : s.jsp.val < 16) :
      Writes s false
        { s with js := s.js.set s.jsp.val s.pc room, jsp := ⟨s.jsp.val + 1, by omega⟩, pc := s.resolve a }
  | branch (a : Word) : Writes s false (s.jump (s.resolve a))
  | popped (d : Nat) (held : s.jsp.val = d + 1) :
      Writes s false { s with jsp := ⟨d, by omega⟩, pc := s.js[d]'(by omega) }
  | ended : Writes s false { s with status := .done }

theorem popReturn_writes (s : State) : Writes s false s.popReturn := by
  cases hd : s.jsp.val with
  | zero => rw [popReturn_empty hd]; exact .ended
  | succ d => rw [popReturn_held hd]; exact .popped d hd

theorem draw_writes (s : State) (A B C : Vertex) : Writes s true (s.draw A B C) := by
  unfold State.draw
  split
  · exact .nothing
  · rename_i passed
    exact .triangle A B C (by simpa using passed)

/-- The inversion of a completed command: what it may have written, by command. -/
theorem effect_writes {i : Instr} {s u : State} (h : effect i s = .ok u) : Writes s (isStraight i) u := by
  cases i with
  | mtx push load proj addr =>
    obtain ⟨v, hv, rfl⟩ := map_ok h
    cases proj with
    | false =>
      obtain ⟨m, T, -, -, -, rfl⟩ := mtxModelview_eq_ok hv
      exact .matrices (s.ms.set m (.written T)) m s.projMtx
    | true =>
      obtain ⟨P, -, -, rfl⟩ := mtxProjection_eq_ok hv
      exact .matrices s.ms s.msp (.written P)
  | vtx nm1 v0 addr =>
    obtain ⟨F, vr, -, -, rfl⟩ := loadVertices_eq_ok h
    exact .registers vr
  | dl addr =>
    obtain ⟨v, hv, rfl⟩ := map_ok h
    obtain ⟨room, rfl⟩ := pushReturn_eq_ok hv
    exact .call addr room
  | dlNopush addr => cases h; exact .branch addr
  | enddl => cases h; exact popReturn_writes s
  | mwSegment seg base => cases h; exact .segment seg base
  | popmtx =>
    obtain ⟨v, hv, rfl⟩ := map_ok h
    obtain ⟨m, -, rfl⟩ := popMsp_eq_ok hv
    exact .matrices s.ms m s.projMtx
  | tri1 ia ib ic =>
    obtain ⟨A, B, C, -, -, -, rfl⟩ := drawTriangle_eq_ok h
    exact draw_writes s A B C
  | noopMovewordOther sub => cases h; exact .nothing
  | noopUnrecognized opcode => cases h; exact .nothing

/-! ### What the writes keep -/

/-- R21, R31, R57: no command writes the screen matrix, the configuration or the image; R71: nor the counter of
commands, which the main loop advances. -/
theorem Writes.sameParse {s u : State} {b : Bool} (h : Writes s b u) : s.sameParse u := by
  cases h <;> exact ⟨rfl, rfl, rfl, fun _ => rfl⟩

/-- R26: a straight command leaves `pc`, the jump stack and the status to the main loop. -/
theorem Writes.sameControl {s u : State} (h : Writes s true u) : s.sameControl u := by
  cases h <;> exact ⟨rfl, rfl, rfl, rfl⟩

/-- The output buffers and their counters. -/
def State.sameOutputs (s t : State) : Prop :=
  t.vout = s.vout ∧ t.fout = s.fout ∧ t.triCount = s.triCount ∧ t.vtxCount = s.vtxCount

/-- R38, R39: a command leaves the outputs alone, or appends one triangle that passed the tests. -/
theorem Writes.outputs {s u : State} {b : Bool} (h : Writes s b u) :
    s.sameOutputs u ∨ ∃ A B C, s.suppressed A B C = false ∧ u = s.emit A B C := by
  cases h with
  | triangle A B C passed => exact .inr ⟨A, B, C, passed, rfl⟩
  | _ => exact .inl ⟨rfl, rfl, rfl, rfl⟩

/-! ### Steps -/

/-- A step that did not fail fetched inside the image and the budget; its command wrote, and was counted. -/
theorem step_live_writes {s t : State} (h : step s = .next t) (live : t.live) :
    s.input.valid = true ∧ s.cmdCount ≠ s.input.maxSteps ∧ s.pc + 8 ≤ s.input.memSize ∧
      ∃ u, Writes s.advance (isStraight s.fetched) u ∧ t = u.count := by
  obtain ⟨hv, -, hb, hf, u, hu, hl, rfl⟩ := step_live h live
  rw [exec_eq_finish] at hu
  exact ⟨hv, hb, hf, u, effect_writes (finish_live hu hl), rfl⟩

/-- Every command, completed or failed, keeps the configuration and the screen matrix. -/
theorem exec_keeps_configuration {i : Instr} {s u : State} (h : exec i s = .next u) :
    u.input = s.input ∧ u.screenMtx = s.screenMtx := by
  rw [exec_eq_finish] at h
  rcases finish_eq_next h with hok | ⟨kind, -, rfl⟩
  · obtain ⟨hscreen, -, hinput, -⟩ := (effect_writes hok).sameParse
    exact ⟨hinput, hscreen⟩
  · simp

/-- So does every step. -/
theorem step_keeps_configuration {s t : State} (h : step s = .next t) :
    t.input = s.input ∧ t.screenMtx = s.screenMtx := by
  obtain ⟨-, -, ⟨err, -, rfl⟩ | ⟨-, u, hu, ⟨-, rfl⟩ | ⟨-, rfl⟩⟩⟩ := step_cases h
  · simp
  · simpa using exec_keeps_configuration hu
  · simpa using exec_keeps_configuration hu

/-- The output buffers after a step that did not fail. -/
theorem step_live_outputs {s t : State} (h : step s = .next t) (live : t.live) :
    s.sameOutputs t ∨ ∃ A B C, s.suppressed A B C = false ∧ (s.advance.emit A B C).sameOutputs t := by
  obtain ⟨-, -, -, u, hu, rfl⟩ := step_live_writes h live
  rcases hu.outputs with hsame | ⟨A, B, C, passed, rfl⟩
  · exact .inl hsame
  · exact .inr ⟨A, B, C, passed, rfl, rfl, rfl, rfl⟩

end Sys2Proof.Machine
end

section
/-! PROOFS. What every step keeps: the configuration, the counter, `pc`, the outputs and the invariant
(10_state.md). -/

namespace Sys2Proof.Machine

/-- Settles O17: no write of a command reaches the configuration or the screen matrix, and an abort keeps both. -/
theorem stepKeepsConfiguration : Obligations.StepKeepsConfiguration := by
  intro s t h
  obtain ⟨hinput, hscreen⟩ := step_keeps_configuration h
  exact ⟨hinput, hscreen, fun a => by rw [hinput]⟩

/-- Settles O16: the configuration is still the valid one the last step ran, so a further step only meets `Done`. -/
theorem doneIsFinal : Obligations.DoneIsFinal := by
  intro s t h hdone
  obtain ⟨hvalid, -, -⟩ := step_cases h
  rw [← (step_keeps_configuration h).1] at hvalid
  simp [step, stepWith, State.presents, hvalid, hdone]

/-- Settles O18: no command writes the counter, and the main loop advances it by one. -/
theorem completedCommandCounted : Obligations.CompletedCommandCounted := by
  intro s t h live
  obtain ⟨-, -, -, u, hu, rfl⟩ := step_live_writes h live
  obtain ⟨-, hcount, -, -⟩ := hu.sameParse
  simp [hcount]

/-- Settles O19: a straight command leaves `pc` at the fetch's advance, which the fetch check bounds. -/
theorem straightStepAdvancesPc : Obligations.StraightStepAdvancesPc := by
  intro s t h live straight
  obtain ⟨-, -, hfetch, u, hu, rfl⟩ := step_live_writes h live
  rw [straight] at hu
  obtain ⟨hpc, -, -, -⟩ := hu.sameControl
  simpa [hpc] using hfetch

/-- Settles O57: the outputs are as before, or one triangle and its face were appended. -/
theorem outputsAppendOnly : Obligations.OutputsAppendOnly := by
  intro s t h live
  rcases step_live_outputs h live with ⟨hvout, hfout, -, -⟩ | ⟨A, B, C, -, hvout, hfout, -, -⟩
  · simp [hvout, hfout]
  · simp [hvout, hfout]

/-! ### The invariant -/

/-- R35: the final matrix is the product of its factors. -/
def State.finalFresh (s : State) : Prop := s.finalMtx = finalOf s.top s.projMtx s.screenMtx

/-- R30, R107: the counters are the lengths of the outputs and the faces number the vertices in order, with at most
`bound` faces. -/
structure State.OutputsNumbered (s : State) (bound : Nat) : Prop where
  triCount_eq : s.triCount = s.fout.length
  vtxCount_eq : s.vtxCount = s.vout.length
  vout_length : s.vout.length = 3 * s.fout.length
  faces : ∀ (k : Nat) (h : k < s.fout.length),
    (s.fout[k]'h).a = 3 * k ∧ (s.fout[k]'h).b = 3 * k + 1 ∧ (s.fout[k]'h).c = 3 * k + 2
  fout_bound : s.fout.length ≤ bound

/-- R20, R36, R53: `pc` and the live return addresses are byte addresses. -/
structure State.AddressesBounded (s : State) : Prop where
  pc_bound : s.pc ≤ 4294967296
  js_bound : ∀ (k : Nat) (h : k < s.jsp.val), s.js[k]'(by omega) ≤ 4294967296

theorem Writes.finalFresh {s u : State} {b : Bool} (h : Writes s b u) (hs : s.finalFresh) : u.finalFresh := by
  cases h with
  | matrices ms msp P => rfl
  | _ => exact hs

theorem State.OutputsNumbered.of_sameOutputs {s t : State} {n : Nat} (hs : s.OutputsNumbered n)
    (h : s.sameOutputs t) : t.OutputsNumbered n := by
  obtain ⟨hvout, hfout, htri, hvtx⟩ := h
  constructor
  · rw [htri, hfout, hs.triCount_eq]
  · rw [hvtx, hvout, hs.vtxCount_eq]
  · rw [hvout, hfout, hs.vout_length]
  · simpa only [hfout] using hs.faces
  · rw [hfout]; exact hs.fout_bound

theorem State.OutputsNumbered.mono {s : State} {m n : Nat} (hs : s.OutputsNumbered m) (h : m ≤ n) :
    s.OutputsNumbered n :=
  { hs with fout_bound := hs.fout_bound.trans h }

/-- R107: a drawn triangle is numbered after those before it. -/
theorem State.OutputsNumbered.emit {s : State} {n : Nat} (hs : s.OutputsNumbered n) (A B C : Vertex) :
    (s.emit A B C).OutputsNumbered (n + 1) := by
  have hlen := hs.vout_length
  constructor
  · simp [hs.triCount_eq]
  · simp [hs.vtxCount_eq]
  · simp only [State.emit_vout, State.emit_fout, List.length_append, List.length_cons, List.length_nil, hlen]
    omega
  · intro k hk
    simp only [State.emit_fout, List.length_append, List.length_singleton] at hk
    simp only [State.emit_fout]
    rcases Nat.lt_succ_iff_lt_or_eq.mp hk with hold | rfl
    · rw [List.getElem_append_left hold]
      exact hs.faces k hold
    · simp [hlen]
  · simpa using hs.fout_bound

theorem State.resolve_lt (s : State) (a : Word) : s.resolve a < 4294967296 := by
  have hseg := (s.segBase (field a 24 4)).isLt
  have hoff := (field a 0 24).isLt
  unfold State.resolve
  omega

theorem State.AddressesBounded.of_writes {s u : State} {b : Bool} (hs : s.AddressesBounded) (h : Writes s b u) :
    u.AddressesBounded := by
  cases h with
  | call a room =>
    refine ⟨(s.resolve_lt a).le, fun k hk => ?_⟩
    rcases Nat.lt_succ_iff_lt_or_eq.mp hk with hold | rfl
    · rw [Vector.getElem_set_ne _ _ (by omega)]
      exact hs.js_bound k hold
    · rw [Vector.getElem_set_self]
      exact hs.pc_bound
  | branch a => exact ⟨(s.resolve_lt a).le, hs.js_bound⟩
  | popped d held => exact ⟨hs.js_bound d (by omega), fun k (hk : k < d) => hs.js_bound k (by omega)⟩
  | _ => exact ⟨hs.pc_bound, hs.js_bound⟩

/-- Settles O55: freshness, numbering and bounds are each kept by what a command may write. -/
theorem stepKeepsInvariant : Obligations.StepKeepsInvariant := by
  intro s t hs h live
  have hcount := completedCommandCounted s t h live
  have hinput := (step_keeps_configuration h).1
  have houtputs : t.OutputsNumbered (s.cmdCount + 1) := by
    have hold : s.advance.OutputsNumbered s.cmdCount :=
      ⟨hs.triCount_eq, hs.vtxCount_eq, hs.vout_length, hs.faces, hs.fout_bound⟩
    rcases step_live_outputs h live with hsame | ⟨A, B, C, -, hsame⟩
    · exact (State.OutputsNumbered.of_sameOutputs hold hsame).mono (Nat.le_succ _)
    · exact (hold.emit A B C).of_sameOutputs hsame
  obtain ⟨hvalid, hbudget, hfetch, u, hu, rfl⟩ := step_live_writes h live
  have hfresh : u.finalFresh := hu.finalFresh hs.finalFresh
  have haddr : u.AddressesBounded := by
    simp only [ParseInput.valid, decide_eq_true_eq] at hvalid
    have hadvance : s.advance.AddressesBounded := ⟨show s.pc + 8 ≤ 4294967296 by omega, hs.js_bound⟩
    exact hadvance.of_writes hu
  exact {
    finalFresh := hfresh
    triCount_eq := houtputs.triCount_eq
    vtxCount_eq := houtputs.vtxCount_eq
    vout_length := houtputs.vout_length
    faces := houtputs.faces
    fout_bound := hcount ▸ houtputs.fout_bound
    budget := by rw [hcount, hinput]; have := hs.budget; omega
    pc_bound := haddr.pc_bound
    js_bound := haddr.js_bound }

/-- Settles O56: the triples of the old outputs are aligned by the invariant, and the one new triple passed. -/
theorem stepKeepsSurvivorsOnly : Obligations.StepKeepsSurvivorsOnly := by
  intro s t hs hold h live
  have hsup : t.suppressed = s.suppressed := by
    funext A B C
    simp only [State.suppressed, (step_keeps_configuration h).1]
  have hlen := hs.vout_length
  unfold State.survivorsOnly
  rcases step_live_outputs h live with ⟨hvout, -, -, -⟩ | ⟨A, B, C, passed, hvout, -, -, -⟩
  · simpa only [hsup, hvout, State.survivorsOnly] using hold
  · intro k hk
    simp only [hvout, State.emit_vout, State.advance_vout, List.length_append, List.length_cons,
      List.length_nil] at hk
    simp only [hsup, hvout, State.emit_vout, State.advance_vout]
    rcases Nat.lt_or_ge (3 * k + 2) s.vout.length with hk' | hk'
    · simpa only [List.getElem_append_left, hk', show 3 * k < s.vout.length by omega,
        show 3 * k + 1 < s.vout.length by omega] using hold k hk'
    · have hkn : 3 * k = s.vout.length := by omega
      simpa [hkn] using passed

end Sys2Proof.Machine
end

section
/-! PROOFS. Rounding is exact on 53 significant bits, so halving a viewport side is (10_state.md R31, D6). -/

namespace Sys2Proof

/-- A number of at most 53 significant bits, `j` places up, keeps no more than the places it ends with. -/
theorem log2_sub_le {n : Nat} (hn : n < 2 ^ 53) (j : Nat) : (n * 2 ^ j).log2 - 52 ≤ j := by
  rcases Nat.eq_zero_or_pos n with rfl | hpos
  · simp
  · have hne : n * 2 ^ j ≠ 0 := (Nat.mul_pos hpos (Nat.two_pow_pos j)).ne'
    have hlt : n * 2 ^ j < 2 ^ (53 + j) := by
      rw [Nat.pow_add]
      exact Nat.mul_lt_mul_of_pos_right hn (Nat.two_pow_pos j)
    have := (Nat.log2_lt hne).2 hlt
    omega

/-- Rounding drops nothing from a number of at most 53 significant bits. -/
theorem round_eq_ofMagnitude (neg : Bool) {n : Nat} (hn : n < 2 ^ 53) (k sh : Nat) :
    Binary64.round neg (n * 2 ^ (k + sh)) sh = Binary64.ofMagnitude neg (n * 2 ^ k) := by
  have hd := log2_sub_le hn (k + sh)
  simp only [Binary64.round]
  generalize hmax : max sh ((n * 2 ^ (k + sh)).log2 - 52) = d
  obtain ⟨low, rfl⟩ : ∃ low, d = sh + low := Nat.exists_eq_add_of_le (by omega)
  obtain ⟨high, rfl⟩ : ∃ high, k = low + high := Nat.exists_eq_add_of_le (by omega)
  have hm : n * 2 ^ (low + high + sh) = n * 2 ^ high * 2 ^ (sh + low) := by
    rw [Nat.mul_assoc, ← Nat.pow_add]
    congr 2
    omega
  rw [hm, roundShift_mul, Nat.shiftLeft_eq, Nat.add_sub_cancel_left, Nat.mul_assoc, ← Nat.pow_add,
    Nat.add_comm high low]

/-- So the rounded number is finite and has exactly that magnitude, below 2^1024. -/
theorem round_exact (neg : Bool) {n k sh p : Nat} (hn : n < 2 ^ 53) (hk : k ≤ 2045) (hp : p = k + sh) :
    ∃ e f, Binary64.round neg (n * 2 ^ p) sh = .finite neg e f ∧ Binary64.magnitude e f = n * 2 ^ k := by
  have hlog := log2_sub_le hn k
  rw [hp, round_eq_ofMagnitude neg hn]
  exact ofMagnitude_key? neg (by omega) ((Nat.pow_dvd_pow 2 hlog).mul_left n)

/-- The magnitude of a power of two, whose fraction is zero. -/
theorem magnitude_two_pow {e : Fin 2047} {k : Nat} (he : e.val ≠ 0) (hk : e.val + 51 = k) :
    Binary64.magnitude e 0 = 2 ^ k := by
  have hexp : k = 52 + (e.val - 1) := by omega
  simp [Binary64.magnitude, he, Nat.shiftLeft_eq, hexp, Nat.pow_add]

theorem signed_natAbs_mul (i : Int) (c : Nat) : Binary64.signed (decide (i < 0)) (i.natAbs * c) = i * c := by
  rcases lt_or_ge i 0 with hneg | hpos
  · simp [Binary64.signed, hneg, abs_of_neg]
  · simp [Binary64.signed, hpos, abs_of_nonneg]

theorem ofDyadic_eq_round (i : Int) (k : Nat) :
    Binary64.ofDyadic i k = Binary64.round (decide (i < 0)) (i.natAbs * 2 ^ (1074 - k)) 0 := by
  rw [Binary64.ofDyadic, Nat.shiftLeft_eq]

/-- One half of an integer of at most 53 significant bits is exact (R31). -/
theorem ofInt_mul_half_key? {i : Int} (hi : i.natAbs < 2 ^ 53) :
    ((Binary64.ofInt i).mul .half).key? = some (i * 2 ^ 1073) := by
  obtain ⟨e, f, hint, hmag⟩ := round_exact (decide (i < 0)) hi (k := 1074) (sh := 0) (by decide) rfl
  obtain ⟨e', f', hround, hmag'⟩ := round_exact (decide (i < 0)) hi (k := 1073) (sh := 1074) (p := 1074 + 1073)
    (by decide) rfl
  have hofInt : Binary64.ofInt i = .finite (decide (i < 0)) e f := by
    rw [Binary64.ofInt, ofDyadic_eq_round, Nat.sub_zero, hint]
  have hhalf : Binary64.magnitude 1022 0 = 2 ^ 1073 := magnitude_two_pow (by decide) rfl
  have hprod : i.natAbs * 2 ^ 1074 * 2 ^ 1073 = i.natAbs * 2 ^ (1074 + 1073) := by
    rw [pow_add, mul_assoc]
  rw [hofInt, Binary64.half, Binary64.mul, hmag, hhalf, hprod, Bool.xor_false, hround, Binary64.key?, hmag',
    signed_natAbs_mul, Nat.cast_pow, Nat.cast_ofNat]

end Sys2Proof

namespace Sys2Proof.Machine

/-- Settles O39: each element is a constant or one half of a side, which is exact. -/
theorem screenMatrixExact : Obligations.ScreenMatrixExact := by
  intro w h r c hw hh
  have hW := ofInt_mul_half_key? (i := w) (by omega)
  have hH := ofInt_mul_half_key? (i := h) (by omega)
  have hN := ofInt_mul_half_key? (i := -h) (by omega)
  have hzero : Binary64.zero.key? = some 0 := rfl
  have hone : Binary64.one.key? = some (2 * 2 ^ 1073) := by
    have hmag : Binary64.magnitude 1023 0 = 2 ^ (1073 + 1) := magnitude_two_pow (by decide) rfl
    rw [Binary64.key?, Binary64.signed, hmag, if_neg (by decide), Nat.cast_pow, pow_succ']
    rfl
  generalize (2 : Int) ^ 1073 = half at hW hH hN hone ⊢
  fin_cases r <;> fin_cases c <;> simp [screenMatrix, hW, hH, hN, hzero, hone]

end Sys2Proof.Machine
end

section
/-! PROOFS. Noninterference: when a relation between states is one that commands cannot tell apart, a step cannot
either. -/

namespace Sys2Proof.Machine

/-- Two results of pseudocode that agree: the same error, or states in relation. -/
inductive AgreeUpTo (R : State → State → Prop) : Except ErrorKind State → Except ErrorKind State → Prop
  | ok {u u' : State} (related : R u u') : AgreeUpTo R (.ok u) (.ok u')
  | error (kind : ErrorKind) : AgreeUpTo R (.error kind) (.error kind)

/-- A relation between states that the main loop and the commands respect: it fixes what the loop reads, and every
command's results agree up to it. -/
structure Unobserved (R : State → State → Prop) : Prop where
  input {s s' : State} : R s s' → s'.input = s.input
  pc {s s' : State} : R s s' → s'.pc = s.pc
  cmdCount {s s' : State} : R s s' → s'.cmdCount = s.cmdCount
  status {s s' : State} : R s s' → s'.status = s.status
  advance {s s' : State} : R s s' → R s.advance s'.advance
  count {s s' : State} : R s s' → R s.count s'.count
  command (i : Instr) {s s' : State} : R s s' → AgreeUpTo R (effect i s) (effect i s')

theorem retire_live {u : State} (live : u.live) : retire (.next u) = .next u.count := by
  cases hu : u.status <;> simp_all [retire, State.live]

theorem retire_not_live {u : State} (failed : ¬ u.live) : retire (.next u) = .next u := by
  cases hu : u.status <;> simp_all [retire, State.live]

/-- A running parse of a valid configuration whose fetch fails aborts. -/
theorem step_of_fetchError {s : State} {err : ErrorRecord} (hv : s.input.valid = true) (hr : s.status = .running)
    (hf : s.fetchError? = some err) : step s = .next (s.abort err) := by
  simp [step, stepWith, hv, hr, hf]

/-- A running parse of a valid configuration whose fetch succeeds executes and retires its command. -/
theorem step_of_fetched {s : State} (hv : s.input.valid = true) (hr : s.status = .running)
    (hf : s.fetchError? = none) : step s = retire (exec s.fetched s.advance) := by
  simp [step, stepWith, hv, hr, hf]

/-- A command cannot tell apart states in a relation that it does not observe. -/
theorem exec_unobserved {R : State → State → Prop} (hR : Unobserved R) (i : Instr) {s s' u : State} (h : R s s')
    (hu : exec i s = .next u) : ∃ u', exec i s' = .next u' ∧ u'.status = u.status ∧ (u.live → R u u') := by
  have hagree := hR.command i h
  rw [exec_eq_finish] at hu ⊢
  generalize effect i s = r at hu hagree
  generalize effect i s' = r' at hagree ⊢
  cases hagree with
  | ok related =>
    cases hu
    exact ⟨_, rfl, hR.status related, fun _ => related⟩
  | error kind =>
    cases hu
    exact ⟨_, rfl, by simp [State.cmdAddr, hR.pc h], fun live => absurd live (State.abort_not_live _ _)⟩

/-- Nor can a step. -/
theorem step_unobserved {R : State → State → Prop} (hR : Unobserved R) {s s' t : State} (h : R s s')
    (hs : step s = .next t) :
    ∃ t', step s' = .next t' ∧ t'.status = t.status ∧ (t.live → R t t') := by
  have hfetchError : s'.fetchError? = s.fetchError? := by
    simp only [State.fetchError?, State.inImage, hR.input h, hR.pc h, hR.cmdCount h]
  have hfetched : s'.fetched = s.fetched := by
    simp only [State.fetched, State.u32At, hR.input h, hR.pc h]
  obtain ⟨hv, hr, hcases⟩ := step_cases hs
  rw [← hR.input h] at hv
  rw [← hR.status h] at hr
  rw [← hfetchError] at hcases
  rcases hcases with ⟨err, hf, rfl⟩ | ⟨hf, u, hu, hend⟩
  · exact ⟨_, step_of_fetchError hv hr hf, rfl, fun live => absurd live (State.abort_not_live s err)⟩
  · obtain ⟨u', hu', hstatus, hrel⟩ := exec_unobserved hR s.fetched (hR.advance h) hu
    have hlive : u'.live ↔ u.live := by rw [State.live, State.live, hstatus]
    rw [step_of_fetched hv hr hf, hfetched, hu']
    rcases hend with ⟨failed, rfl⟩ | ⟨live, rfl⟩
    · exact ⟨u', retire_not_live (hlive.not.mpr failed), hstatus, fun live => absurd live failed⟩
    · exact ⟨u'.count, retire_live (hlive.mpr live), hstatus, fun _ => hR.count (hrel live)⟩

/-! ### Commands that read neither the registers, nor the outputs, nor the jump stack -/

/-- The state with its buffers mapped: the vertex registers, the outputs and the jump-stack slots. -/
def State.mapBuffers (f : Vector (Slot Vertex) 64 → Vector (Slot Vertex) 64) (g : List Vertex → List Vertex)
    (h : List Face → List Face) (k : Vector Nat 16 → Vector Nat 16) (s : State) : State :=
  { s with vr := f s.vr, vout := g s.vout, fout := h s.fout, js := k s.js }

section
variable (f : Vector (Slot Vertex) 64 → Vector (Slot Vertex) 64) (g : List Vertex → List Vertex)
  (h : List Face → List Face) (k : Vector Nat 16 → Vector Nat 16) (s : State)

theorem mtxProjection_mapBuffers (load : Bool) (addr : Word) :
    (s.mapBuffers f g h k).mtxProjection load addr = (s.mtxProjection load addr).map (State.mapBuffers f g h k) := by
  have hload : (s.mapBuffers f g h k).loadMtx ((s.mapBuffers f g h k).resolve addr) = s.loadMtx (s.resolve addr) := rfl
  have htarget : (s.mapBuffers f g h k).projMtx = s.projMtx := rfl
  unfold State.mtxProjection
  rw [hload, htarget]
  cases s.loadMtx (s.resolve addr) with
  | error kind => rfl
  | ok M => cases hP : combine load M s.projMtx <;> simp only [bind, Except.bind, hP] <;> rfl

theorem mtxModelview_mapBuffers (push load : Bool) (addr : Word) :
    (s.mapBuffers f g h k).mtxModelview push load addr =
      (s.mtxModelview push load addr).map (State.mapBuffers f g h k) := by
  have hpush : (s.mapBuffers f g h k).pushedMsp push = s.pushedMsp push := rfl
  have hload : (s.mapBuffers f g h k).loadMtx ((s.mapBuffers f g h k).resolve addr) = s.loadMtx (s.resolve addr) := rfl
  have htarget : (s.mapBuffers f g h k).ms = s.ms := rfl
  unfold State.mtxModelview
  rw [hpush, hload, htarget]
  cases s.pushedMsp push with
  | error kind => rfl
  | ok m =>
    cases s.loadMtx (s.resolve addr) with
    | error kind => rfl
    | ok M => cases hT : combine load M s.ms[m] <;> simp only [bind, Except.bind, hT] <;> rfl

theorem popMsp_mapBuffers : (s.mapBuffers f g h k).popMsp = s.popMsp.map (State.mapBuffers f g h k) := by
  unfold State.popMsp
  rw [apply_ite (Except.map _)]
  rfl

/-- A recomputation of the final matrix after a result does not observe the mapped parts either. -/
theorem map_recomputeFinal_mapBuffers (r : Except ErrorKind State) :
    (r.map (State.mapBuffers f g h k)).map State.recomputeFinal =
      (r.map State.recomputeFinal).map (State.mapBuffers f g h k) := by
  cases r <;> rfl

/-- The commands that read or write a register, an output or a jump-stack slot. -/
def usesBuffers : Instr → Bool
  | .vtx _ _ _ => true
  | .tri1 _ _ _ => true
  | .dl _ => true
  | .enddl => true
  | _ => false

/-- Every other command commutes with a change of them. -/
theorem effect_mapBuffers {i : Instr} (hi : usesBuffers i = false) :
    effect i (s.mapBuffers f g h k) = (effect i s).map (State.mapBuffers f g h k) := by
  cases i with
  | mtx push load proj addr =>
    cases proj with
    | false =>
      exact (congrArg _ (mtxModelview_mapBuffers f g h k s push load addr)).trans (map_recomputeFinal_mapBuffers ..)
    | true =>
      exact (congrArg _ (mtxProjection_mapBuffers f g h k s load addr)).trans (map_recomputeFinal_mapBuffers ..)
  | popmtx => exact (congrArg _ (popMsp_mapBuffers f g h k s)).trans (map_recomputeFinal_mapBuffers ..)
  | vtx | tri1 | dl | enddl => cases hi
  | dlNopush | mwSegment | noopMovewordOther | noopUnrecognized => rfl

end

/-! ### The records of a load -/

/-- A load reads nothing of the state but the image. -/
theorem loadRecords_congr {s s' : State} (h : s'.input = s.input) (F : Mtx) (base v0 n i : Nat)
    (vr : Vector (Slot Vertex) 64) : s'.loadRecords F base v0 n i vr = s.loadRecords F base v0 n i vr := by
  have hrecord : s'.recordVertex F = s.recordVertex F := by
    funext a
    simp only [State.recordVertex, State.s16At, State.u16At, h]
  induction n generalizing i vr with
  | zero => rfl
  | succ n ih => simp only [State.loadRecords, State.inImage, h, hrecord, ih]

/-- The state with other vertex registers. -/
def State.withVr (s : State) (vr : Vector (Slot Vertex) 64) : State := { s with vr := vr }

theorem loadVertices_written {s : State} {F : Mtx} (hF : s.finalMtx = .written F) (nm1 v0 : BitVec 4) (addr : Word) :
    s.loadVertices nm1 v0 addr =
      (s.loadRecords F (s.resolve addr) v0.toNat (nm1.toNat + 1) 0 s.vr).map s.withVr := by
  cases hload : s.loadRecords F (s.resolve addr) v0.toNat (nm1.toNat + 1) 0 s.vr <;>
    simp [State.loadVertices, State.withVr, hF, hload, Except.map]

theorem loadVertices_unwritten {s : State} (hF : s.finalMtx = .unwritten) (nm1 v0 : BitVec 4) (addr : Word) :
    s.loadVertices nm1 v0 addr = .error .uninitializedRead := by
  unfold State.loadVertices
  rw [hF]

/-! ### Source addresses -/

theorem eraseSlotSrc_eraseSlotSrc (v : Slot Vertex) : eraseSlotSrc (eraseSlotSrc v) = eraseSlotSrc v := by
  cases v <;> rfl

theorem State.eraseSrc_eraseSrc (s : State) : s.eraseSrc.eraseSrc = s.eraseSrc := by
  simp [State.eraseSrc, Function.comp_def, eraseSlotSrc_eraseSlotSrc, Vertex.eraseSrc, Face.eraseSrc]

/-- Pseudocode that commutes with the erasure gives results that are equal up to it. -/
theorem map_eraseSrc_of_commutes {r r' : Except ErrorKind State} (h : r' = r.map State.eraseSrc) :
    r'.map State.eraseSrc = r.map State.eraseSrc := by
  subst h
  cases r with
  | error kind => rfl
  | ok u => exact congrArg Except.ok u.eraseSrc_eraseSrc

theorem pushReturn_eraseSrc (s : State) : s.eraseSrc.pushReturn = s.pushReturn.map State.eraseSrc := by
  unfold State.pushReturn
  rw [apply_dite (Except.map _)]
  rfl

theorem popReturn_eraseSrc (s : State) : s.eraseSrc.popReturn = s.popReturn.eraseSrc := by
  unfold State.popReturn
  rw [apply_dite State.eraseSrc]
  rfl

/-- R104: which register an index byte names, and whether it may, does not depend on a source address. -/
theorem indexedVertex_eraseSrc (s : State) (b : Byte) :
    s.eraseSrc.indexedVertex b = (s.indexedVertex b).map Vertex.eraseSrc := by
  unfold State.indexedVertex
  split
  · rfl
  · split
    · rename_i hlt
      have hslot : s.eraseSrc.vr[b.toNat / 10] = eraseSlotSrc s.vr[b.toNat / 10] := by simp [State.eraseSrc]
      rw [hslot]
      cases s.vr[b.toNat / 10] <;> rfl
    · rfl

/-- R105, R106: nor does whether a triangle passes its tests; R107: what it appends differs in source addresses
alone. -/
theorem draw_eraseSrc (s : State) (A B C : Vertex) :
    (s.eraseSrc.draw A.eraseSrc B.eraseSrc C.eraseSrc).eraseSrc = (s.draw A B C).eraseSrc := by
  have htests : s.eraseSrc.suppressed A.eraseSrc B.eraseSrc C.eraseSrc = s.suppressed A B C := rfl
  unfold State.draw
  rw [htests]
  split
  · exact s.eraseSrc_eraseSrc
  · simp [State.eraseSrc, State.emit, Function.comp_def, eraseSlotSrc_eraseSlotSrc, Vertex.eraseSrc, Face.eraseSrc]

theorem drawTriangle_eraseSrc (s : State) (ia ib ic : Byte) :
    (s.eraseSrc.drawTriangle ia ib ic).map State.eraseSrc = (s.drawTriangle ia ib ic).map State.eraseSrc := by
  simp only [State.drawTriangle, indexedVertex_eraseSrc]
  cases s.indexedVertex ia with
  | error kind => rfl
  | ok A =>
    cases s.indexedVertex ib with
    | error kind => rfl
    | ok B =>
      cases s.indexedVertex ic with
      | error kind => rfl
      | ok C => exact congrArg Except.ok (draw_eraseSrc s A B C)

/-- Loads into registers that are equal up to source addresses stay so. -/
theorem loadRecords_eraseSlotSrc (s : State) (F : Mtx) (base v0 n i : Nat) {vr vr' : Vector (Slot Vertex) 64}
    (h : vr.map eraseSlotSrc = vr'.map eraseSlotSrc) :
    (s.loadRecords F base v0 n i vr).map (·.map eraseSlotSrc) =
      (s.loadRecords F base v0 n i vr').map (·.map eraseSlotSrc) := by
  induction n generalizing i vr vr' with
  | zero => exact congrArg Except.ok h
  | succ n ih =>
    simp only [State.loadRecords]
    split
    · split
      · exact ih _ (by rw [Vector.map_set, Vector.map_set, h])
      · rfl
    · rfl

theorem map_withVr_eraseSrc (s : State) (r : Except ErrorKind (Vector (Slot Vertex) 64)) :
    (r.map s.withVr).map State.eraseSrc = (r.map (·.map eraseSlotSrc)).map s.eraseSrc.withVr := by
  cases r <;> rfl

theorem loadVertices_eraseSrc (s : State) (nm1 v0 : BitVec 4) (addr : Word) :
    (s.eraseSrc.loadVertices nm1 v0 addr).map State.eraseSrc = (s.loadVertices nm1 v0 addr).map State.eraseSrc := by
  cases hF : s.finalMtx with
  | unwritten => rw [loadVertices_unwritten hF, loadVertices_unwritten (s := s.eraseSrc) hF]
  | written F =>
    rw [loadVertices_written hF, loadVertices_written (s := s.eraseSrc) hF,
      loadRecords_congr (s := s) (s' := s.eraseSrc) rfl, map_withVr_eraseSrc, map_withVr_eraseSrc, s.eraseSrc_eraseSrc]
    exact congrArg _ (loadRecords_eraseSlotSrc s F _ _ _ _ (congrArg State.vr s.eraseSrc_eraseSrc))

theorem effect_eraseSrc_of_not_usesBuffers {i : Instr} (hi : usesBuffers i = false) (s : State) :
    effect i s.eraseSrc = (effect i s).map State.eraseSrc :=
  effect_mapBuffers (·.map eraseSlotSrc) (·.map Vertex.eraseSrc) (·.map Face.eraseSrc) id s hi

/-- R24, R174: what a command does, its error included, is the same up to source addresses once they are erased. -/
theorem effect_eraseSrc (i : Instr) (s : State) :
    (effect i s.eraseSrc).map State.eraseSrc = (effect i s).map State.eraseSrc := by
  cases i with
  | vtx nm1 v0 addr => exact loadVertices_eraseSrc s nm1 v0 addr
  | tri1 ia ib ic => exact drawTriangle_eraseSrc s ia ib ic
  | dl addr =>
    apply map_eraseSrc_of_commutes
    simp only [effect, pushReturn_eraseSrc]
    cases s.pushReturn <;> rfl
  | enddl => exact map_eraseSrc_of_commutes (congrArg Except.ok (popReturn_eraseSrc s))
  | mtx | popmtx | dlNopush | mwSegment | noopMovewordOther | noopUnrecognized =>
    exact map_eraseSrc_of_commutes (effect_eraseSrc_of_not_usesBuffers rfl s)

theorem agreeUpTo_of_map_eq {f : State → State} {r r' : Except ErrorKind State} (h : r.map f = r'.map f) :
    AgreeUpTo (fun s s' => f s = f s') r r' := by
  cases r with
  | error kind =>
    cases r' with
    | error kind' =>
      obtain rfl : kind = kind' := Except.error.inj h
      exact .error kind
    | ok u' => cases h
  | ok u =>
    cases r' with
    | error kind' => cases h
    | ok u' => exact .ok (Except.ok.inj h)

/-- R24, R174: source addresses are never observed. -/
theorem eraseSrc_unobserved : Unobserved fun s s' => s.eraseSrc = s'.eraseSrc where
  input h := (congrArg State.input h).symm
  pc h := (congrArg State.pc h).symm
  cmdCount h := (congrArg State.cmdCount h).symm
  status h := (congrArg State.status h).symm
  advance h := congrArg State.advance h
  count h := congrArg State.count h
  command i {s s'} h := agreeUpTo_of_map_eq <| by rw [← effect_eraseSrc i s, h, effect_eraseSrc i s']

/-- Settles O58: no command observes a source address, so no step does. -/
theorem sourceAddressesDecideNothing : Obligations.SourceAddressesDecideNothing := by
  intro s s' t h hs
  obtain ⟨t', ht', hstatus, hrel⟩ := step_unobserved eraseSrc_unobserved h hs
  exact ⟨t', ht', hstatus, fun live => (hrel live).symm⟩

/-! ### Dead slots -/

/-- The state with another jump stack. -/
def State.withJs (s : State) (js : Vector Nat 16) : State := { s with js := js }

theorem agreeLive_iff {s s' : State} : s.agreeLive s' ↔
    ∃ js : Vector Nat 16, s' = s.withJs js ∧
      ∀ (k : Nat) (h : k < s.jsp.val), js[k]'(by omega) = s.js[k]'(by omega) := by
  constructor
  · rintro ⟨heq, hlive⟩
    exact ⟨s'.js, heq, hlive⟩
  · rintro ⟨js, rfl, hlive⟩
    exact ⟨rfl, hlive⟩

theorem loadVertices_withJs (s : State) (js : Vector Nat 16) (nm1 v0 : BitVec 4) (addr : Word) :
    (s.withJs js).loadVertices nm1 v0 addr = (s.loadVertices nm1 v0 addr).map (·.withJs js) := by
  cases hF : s.finalMtx with
  | unwritten => rw [loadVertices_unwritten hF, loadVertices_unwritten (s := s.withJs js) hF]; rfl
  | written F =>
    rw [loadVertices_written hF, loadVertices_written (s := s.withJs js) hF,
      loadRecords_congr (s := s) (s' := s.withJs js) rfl]
    change (s.loadRecords F (s.resolve addr) v0.toNat (nm1.toNat + 1) 0 s.vr).map _ = _
    cases s.loadRecords F (s.resolve addr) v0.toNat (nm1.toNat + 1) 0 s.vr <;> rfl

theorem drawTriangle_withJs (s : State) (js : Vector Nat 16) (ia ib ic : Byte) :
    (s.withJs js).drawTriangle ia ib ic = (s.drawTriangle ia ib ic).map (·.withJs js) := by
  have hvertex : (s.withJs js).indexedVertex = s.indexedVertex := rfl
  have hdraw (A B C : Vertex) : (s.withJs js).draw A B C = (s.draw A B C).withJs js := by
    unfold State.draw
    rw [apply_ite (State.withJs · js)]
    rfl
  unfold State.drawTriangle
  rw [hvertex]
  cases s.indexedVertex ia with
  | error kind => rfl
  | ok A =>
    cases s.indexedVertex ib with
    | error kind => rfl
    | ok B =>
      cases s.indexedVertex ic with
      | error kind => rfl
      | ok C => exact congrArg Except.ok (hdraw A B C)

/-- R36: a straight command neither reads nor writes the jump stack. -/
theorem effect_withJs_of_isStraight {i : Instr} (hi : isStraight i = true) (s : State) (js : Vector Nat 16) :
    effect i (s.withJs js) = (effect i s).map (·.withJs js) := by
  cases i with
  | vtx nm1 v0 addr => exact loadVertices_withJs s js nm1 v0 addr
  | tri1 ia ib ic => exact drawTriangle_withJs s js ia ib ic
  | dl | dlNopush | enddl => cases hi
  | mtx | popmtx | mwSegment | noopMovewordOther | noopUnrecognized =>
    exact effect_mapBuffers id id id (fun _ => js) s rfl

/-- Stacks that agree below a slot agree up to it once it is written alike. -/
theorem getElem_set_eq_of_agree {js js' : Vector Nat 16} {n k : Nat} (hn : n < 16)
    (h : ∀ (k : Nat) (hk : k < n), js'[k]'(by omega) = js[k]'(by omega)) (v : Nat) (hk : k < n + 1) :
    (js'.set n v)[k]'(by omega) = (js.set n v)[k]'(by omega) := by
  rcases Nat.lt_succ_iff_lt_or_eq.mp hk with hold | rfl
  · rw [Vector.getElem_set_ne _ _ (by omega), Vector.getElem_set_ne _ _ (by omega), h k hold]
  · rw [Vector.getElem_set_self, Vector.getElem_set_self]

section
variable {s : State} {js : Vector Nat 16}
  (hlive : ∀ (k : Nat) (h : k < s.jsp.val), js[k]'(by omega) = s.js[k]'(by omega))
include hlive

theorem effect_agreeLive_of_isStraight {i : Instr} (hi : isStraight i = true) :
    AgreeUpTo State.agreeLive (effect i s) (effect i (s.withJs js)) := by
  rw [effect_withJs_of_isStraight hi]
  cases hr : effect i s with
  | error kind => exact .error kind
  | ok u =>
    obtain ⟨-, hjs, hjsp, -⟩ := (hi ▸ effect_writes hr).sameControl
    exact .ok ⟨rfl, fun k hk => (hlive k (hjsp ▸ hk)).trans (by simp only [hjs])⟩

/-- R140: a call writes the slot that it makes live. -/
theorem call_agreeLive (addr : Word) :
    AgreeUpTo State.agreeLive (effect (.dl addr) s) (effect (.dl addr) (s.withJs js)) := by
  by_cases room : s.jsp.val < 16
  · have hs : s.pushReturn = .ok _ := dif_pos room
    have hs' : (s.withJs js).pushReturn = .ok _ := dif_pos room
    rw [effect, effect, hs, hs']
    exact .ok ⟨rfl, fun k hk => getElem_set_eq_of_agree room hlive _ hk⟩
  · have hs : s.pushReturn = .error _ := dif_neg room
    have hs' : (s.withJs js).pushReturn = .error _ := dif_neg room
    rw [effect, effect, hs, hs']
    exact .error _

/-- R142: a return reads a live slot, and leaves it dead. -/
theorem return_agreeLive : s.popReturn.agreeLive (s.withJs js).popReturn := by
  cases hd : s.jsp.val with
  | zero =>
    rw [popReturn_empty hd, popReturn_empty (s := s.withJs js) hd]
    exact ⟨rfl, hlive⟩
  | succ d =>
    rw [popReturn_held hd, popReturn_held (s := s.withJs js) hd]
    refine ⟨?_, fun k (hk : k < d) => hlive k (by omega)⟩
    simp only [State.withJs, hlive d (by omega)]

end

/-- R36, I6: no command observes a dead slot. -/
theorem effect_agreeLive (i : Instr) {s s' : State} (h : s.agreeLive s') :
    AgreeUpTo State.agreeLive (effect i s) (effect i s') := by
  obtain ⟨js, rfl, hlive⟩ := agreeLive_iff.mp h
  cases i with
  | dl addr => exact call_agreeLive hlive addr
  | dlNopush addr => exact .ok ⟨rfl, hlive⟩
  | enddl => exact .ok (return_agreeLive hlive)
  | mtx | vtx | popmtx | tri1 | mwSegment | noopMovewordOther | noopUnrecognized =>
    exact effect_agreeLive_of_isStraight hlive rfl

/-- R36, I6: dead jump-stack slots are never observed. -/
theorem agreeLive_unobserved : Unobserved State.agreeLive where
  input h := (congrArg State.input h.1).trans rfl
  pc h := (congrArg State.pc h.1).trans rfl
  cmdCount h := (congrArg State.cmdCount h.1).trans rfl
  status h := (congrArg State.status h.1).trans rfl
  advance h := ⟨congrArg State.advance h.1, h.2⟩
  count h := ⟨congrArg State.count h.1, h.2⟩
  command := effect_agreeLive

/-- Settles O59: no command observes a dead jump-stack slot, so no step does. -/
theorem deadReturnSlotsUnread : Obligations.DeadReturnSlotsUnread := by
  intro s s' t h hs
  exact step_unobserved agreeLive_unobserved h hs

end Sys2Proof.Machine
end

section
/-! PROOFS. The big-endian read port and segmented addresses (20_memory.md). -/

namespace Sys2Proof

/-- The number a field holds, by plain arithmetic on the word's. -/
theorem field_toNat (w : Word) (lo n : Nat) : (field w lo n).toNat = w.toNat / 2 ^ lo % 2 ^ n := by
  rw [field, BitVec.extractLsb'_toNat, Nat.shiftRight_eq_div_pow]

/-- A field below bit 28 does not see the four bits above it. -/
theorem field_and_low28 (w : Word) {lo n : Nat} (h : lo + n ≤ 28) : field (w &&& 0x0FFFFFFF) lo n = field w lo n := by
  have hlow : field (w &&& 0x0FFFFFFF) 0 28 = field w 0 28 := by
    apply BitVec.eq_of_toNat_eq
    have hmask : (w &&& 0x0FFFFFFF).toNat = w.toNat % 2 ^ 28 := Nat.and_two_pow_sub_one_eq_mod w.toNat 28
    rw [field_toNat, field_toNat, hmask, Nat.pow_zero, Nat.div_one, Nat.div_one, Nat.mod_mod]
  exact field_eq_of_field_eq hlow (Nat.zero_le lo) (by omega)

end Sys2Proof

namespace Sys2Proof.Machine

/-! ### The read port -/

/-- R54: reading more bytes appends them below those read before. -/
theorem imageValue_add (image : List Host.Cell) (a m n : Nat) :
    imageValue image a (m + n) = imageValue image a m * 256 ^ n + imageValue image (a + m) n := by
  induction n with
  | zero => simp [imageValue]
  | succ n ih =>
    rw [← Nat.add_assoc, imageValue, ih, imageValue, Nat.add_assoc a m n]
    ring

theorem imageValue_two (image : List Host.Cell) (a : Nat) :
    imageValue image a 2 = (imageByte image a).toNat * 256 + (imageByte image (a + 1)).toNat := by
  simp [imageValue, Nat.mul_comm]

theorem State.u16At_toNat (s : State) (a : Nat) : (s.u16At a).toNat = imageValue s.input.image a 2 :=
  Nat.mod_eq_of_lt (imageValue_lt s.input.image a 2)

theorem State.u32At_toNat (s : State) (a : Nat) : (s.u32At a).toNat = imageValue s.input.image a 4 :=
  Nat.mod_eq_of_lt (imageValue_lt s.input.image a 4)

/-- R54: four bytes are two 16-bit values, the first the more significant. -/
theorem imageValue_four_eq_u16At (s : State) (a : Nat) :
    imageValue s.input.image a 4 = (s.u16At a).toNat * 65536 + (s.u16At (a + 2)).toNat := by
  rw [s.u16At_toNat, s.u16At_toNat]
  exact imageValue_add s.input.image a 2 2

/-- Settles O20: inside the image the port answers the big-endian value, which splits in halves; past it, the check
fails first. -/
theorem memReadBigEndian : Obligations.MemReadBigEndian := by
  intro s a
  refine ⟨fun h2 => ?_, fun h4 => ⟨?_, ?_⟩, fun n hn => memRead_of_not_inImage (Nat.not_le.mpr hn)⟩
  · rw [memRead_of_inImage h2, imageValue_two]
  · rw [memRead_of_inImage h4, imageValue_four_eq_u16At]
  · rw [s.u32At_toNat, imageValue_four_eq_u16At]

/-! ### Segmented addresses -/

/-- R58, with the offset by plain arithmetic. -/
theorem State.resolve_eq (s : State) (a : Word) :
    s.resolve a = (s.segBase (field a 24 4)).toNat + a.toNat % 16777216 := by
  have hoff : (field a 0 24).toNat = a.toNat % 16777216 := by simp [field_toNat]
  rw [State.resolve, hoff]

/-- R32: the base that a 4-bit index selects, by the index's number. -/
theorem State.segBase_eq (s : State) {i : BitVec 4} {k : Fin 16} (h : k.val = i.toNat) : s.segBase i = s.seg[k] := by
  obtain rfl : k = i.toFin := Fin.ext h
  rfl

/-- R53: a 29-bit base and a 24-bit offset stay below `2^30`. -/
theorem State.resolve_lt_two_pow_30 (s : State) (a : Word) : s.resolve a < 1073741824 := by
  have hbase := (s.segBase (field a 24 4)).isLt
  rw [s.resolve_eq]
  omega

/-- D10: `a[31:28]` is ignored. -/
theorem State.resolve_and_low28 (s : State) (a : Word) : s.resolve (a &&& 0x0FFFFFFF) = s.resolve a := by
  rw [State.resolve, field_and_low28 a (by decide), field_and_low28 a (by decide), State.resolve]

/-- Settles O21: the index and the offset are fields of the address below its bit 28. -/
theorem segmentedAddressResolves : Obligations.SegmentedAddressResolves := by
  intro s a
  refine ⟨fun k hk => ?_, s.resolve_lt_two_pow_30 a, (s.resolve_and_low28 a).symm⟩
  have hindex : k.val = (field a 24 4).toNat := by simp [field_toNat, hk]
  rw [s.resolve_eq, s.segBase_eq hindex]

end Sys2Proof.Machine
end

section
/-! SUPPORT. The decoder as its rows (30_encoding.md R72), and the operand fields of encoded words (R73 to R79). -/

namespace Sys2Proof

/-! ### The rows -/

/-- R72, R80: an unrecognised opcode differs from each of the seven. -/
theorem notMem_recognisedOpcodes_iff (op : Byte) : op ∉ recognisedOpcodes ↔
    op ≠ 0x01#8 ∧ op ≠ 0x04#8 ∧ op ≠ 0x06#8 ∧ op ≠ 0xB8#8 ∧ op ≠ 0xBC#8 ∧ op ≠ 0xBD#8 ∧ op ≠ 0xBF#8 := by
  simp [recognisedOpcodes]

/-- R72 to R80: the row that reads a command, and the operand fields it reads. -/
inductive Reads (w0 w1 : Word) : Instr → Prop
  | mtx (op : field w0 24 8 = 0x01#8) : Reads w0 w1 (.mtx (bit w0 18) (bit w0 17) (bit w0 16) w1)
  | vtx (op : field w0 24 8 = 0x04#8) : Reads w0 w1 (.vtx (field w0 20 4) (field w0 16 4) w1)
  | dl (op : field w0 24 8 = 0x06#8) (nopush : bit w0 16 = false) : Reads w0 w1 (.dl w1)
  | dlNopush (op : field w0 24 8 = 0x06#8) (nopush : bit w0 16 = true) : Reads w0 w1 (.dlNopush w1)
  | enddl (op : field w0 24 8 = 0xB8#8) : Reads w0 w1 .enddl
  | mwSegment (op : field w0 24 8 = 0xBC#8) (sub : field w0 0 8 = 0x06#8) : Reads w0 w1 (.mwSegment (field w0 10 4) w1)
  | popmtx (op : field w0 24 8 = 0xBD#8) : Reads w0 w1 .popmtx
  | tri1 (op : field w0 24 8 = 0xBF#8) : Reads w0 w1 (.tri1 (field w1 16 8) (field w1 8 8) (field w1 0 8))
  | movewordOther (op : field w0 24 8 = 0xBC#8) (sub : field w0 0 8 ≠ 0x06#8) :
      Reads w0 w1 (.noopMovewordOther (field w0 0 8))
  | unrecognized (op : field w0 24 8 ∉ recognisedOpcodes) : Reads w0 w1 (.noopUnrecognized (field w0 24 8))

/-- R72: the first opcode that compares equal selects the row, so `decode` answers what one of the rows reads. -/
theorem decode_reads (w0 w1 : Word) : Reads w0 w1 (decode w0 w1) := by
  rw [decode]
  split_ifs with h01 h04 h06 hnopush hB8 hBC hsub hBD hBF
  · exact .mtx h01
  · exact .vtx h04
  · exact .dlNopush h06 hnopush
  · exact .dl h06 (Bool.eq_false_of_not_eq_true hnopush)
  · exact .enddl hB8
  · exact .mwSegment hBC hsub
  · exact .movewordOther hBC hsub
  · exact .popmtx hBD
  · exact .tri1 hBF
  · exact .unrecognized ((notMem_recognisedOpcodes_iff _).mpr ⟨h01, h04, h06, hB8, hBC, hBD, hBF⟩)

/-- The rows exclude each other: what any of them reads is what `decode` answers. -/
theorem Reads.decode_eq {w0 w1 : Word} {i : Instr} (h : Reads w0 w1 i) : decode w0 w1 = i := by
  cases h with
  | unrecognized op =>
    rw [notMem_recognisedOpcodes_iff] at op
    simp [decode, op]
  | _ => simp [decode, *]

/-! ### The fields of encoded words -/

/-- A field between the ends of a concatenation. -/
theorem extract_append_middle {h m l : Nat} (x : BitVec h) (y : BitVec m) (z : BitVec l) :
    (x ++ (y ++ z)).extractLsb' l m = y :=
  (extract_append_low x _ (Nat.add_comm l m).le).trans (extract_append_left y z)

/-- R75: the three flags of a matrix op are the bits 18, 17 and 16, whatever the address. -/
theorem encode_mtx_flags (push load proj : Bool) (addr : Word) :
    bit (encode (.mtx push load proj addr)).1 18 = push ∧ bit (encode (.mtx push load proj addr)).1 17 = load ∧
      bit (encode (.mtx push load proj addr)).1 16 = proj := by
  have hzero : ∀ push load proj : Bool,
      bit (encode (.mtx push load proj 0)).1 18 = push ∧ bit (encode (.mtx push load proj 0)).1 17 = load ∧
        bit (encode (.mtx push load proj 0)).1 16 = proj := by decide
  exact hzero push load proj

/-- R73: the count and the first register of a load. -/
theorem encode_vtx_registers (nm1 v0 : BitVec 4) (addr : Word) :
    field (encode (.vtx nm1 v0 addr)).1 20 4 = nm1 ∧ field (encode (.vtx nm1 v0 addr)).1 16 4 = v0 :=
  ⟨extract_append_middle _ nm1 _, (extract_append_low _ _ (by decide)).trans (extract_append_middle nm1 v0 _)⟩

/-- R77: a call has the `nopush` bit clear. -/
theorem encode_dl_nopush (addr : Word) : bit (encode (.dl addr)).1 16 = false := by
  have hzero : bit (encode (.dl 0)).1 16 = false := by decide
  exact hzero

/-- R77: a tail branch has the `nopush` bit set. -/
theorem encode_dlNopush_nopush (addr : Word) : bit (encode (.dlNopush addr)).1 16 = true := by
  have hzero : bit (encode (.dlNopush 0)).1 16 = true := by decide
  exact hzero

/-- R79: the index of a set segment, and its sub-opcode. -/
theorem encode_mwSegment_fields (seg : BitVec 4) (base : Word) :
    field (encode (.mwSegment seg base)).1 10 4 = seg ∧ field (encode (.mwSegment seg base)).1 0 8 = 0x06#8 :=
  ⟨(extract_append_low _ _ (by decide)).trans (extract_append_middle _ seg _),
    (extract_append_low _ _ (by decide)).trans ((extract_append_low _ _ (by decide)).trans
      ((extract_append_low _ _ (by decide)).trans BitVec.extractLsb'_append_eq_right))⟩

/-- R74: the three index bytes of a triangle, in `w1`. -/
theorem encode_tri1_indices (ia ib ic : Byte) :
    field (encode (.tri1 ia ib ic)).2 16 8 = ia ∧ field (encode (.tri1 ia ib ic)).2 8 8 = ib ∧
      field (encode (.tri1 ia ib ic)).2 0 8 = ic :=
  ⟨extract_append_middle _ ia _, (extract_append_low _ _ (by decide)).trans (extract_append_middle ia ib ic),
    (extract_append_low _ _ (by decide)).trans ((extract_append_low _ _ (by decide)).trans
      BitVec.extractLsb'_append_eq_right)⟩

/-- R72: the sub-opcode of the other move-words. -/
theorem encode_noopMovewordOther_sub (sub : Byte) : field (encode (.noopMovewordOther sub)).1 0 8 = sub :=
  (extract_append_low _ _ (by decide)).trans BitVec.extractLsb'_append_eq_right

/-- The encoded words of a well-formed command are read by its own row, which finds its operands in them. -/
theorem reads_encode {i : Instr} (h : i.wf = true) : Reads (encode i).1 (encode i).2 i := by
  cases i with
  | mtx push load proj addr =>
    obtain ⟨hpush, hload, hproj⟩ := encode_mtx_flags push load proj addr
    have hreads := Reads.mtx (w1 := addr) (Laws.OpcodeByte.mtx push load proj addr)
    rwa [hpush, hload, hproj] at hreads
  | vtx nm1 v0 addr =>
    obtain ⟨hnm1, hv0⟩ := encode_vtx_registers nm1 v0 addr
    have hreads := Reads.vtx (w1 := addr) (Laws.OpcodeByte.vtx nm1 v0 addr)
    rwa [hnm1, hv0] at hreads
  | dl addr => exact .dl (Laws.OpcodeByte.dl addr) (encode_dl_nopush addr)
  | dlNopush addr => exact .dlNopush (Laws.OpcodeByte.dlNopush addr) (encode_dlNopush_nopush addr)
  | enddl => exact .enddl Laws.OpcodeByte.enddl
  | mwSegment seg base =>
    obtain ⟨hseg, hsub⟩ := encode_mwSegment_fields seg base
    have hreads := Reads.mwSegment (w1 := base) (Laws.OpcodeByte.mwSegment seg base) hsub
    rwa [hseg] at hreads
  | popmtx => exact .popmtx Laws.OpcodeByte.popmtx
  | tri1 ia ib ic =>
    obtain ⟨ha, hb, hc⟩ := encode_tri1_indices ia ib ic
    have hreads := Reads.tri1 (w1 := (encode (.tri1 ia ib ic)).2) (Laws.OpcodeByte.tri1 ia ib ic)
    rwa [ha, hb, hc] at hreads
  | noopMovewordOther sub =>
    have hreads := Reads.movewordOther (w1 := 0) (Laws.OpcodeByte.noopMovewordOther sub)
    rw [encode_noopMovewordOther_sub] at hreads
    exact hreads (by simpa [Instr.wf] using h)
  | noopUnrecognized opcode =>
    have hop : field (encode (.noopUnrecognized opcode)).1 24 8 = opcode := Laws.OpcodeByte.noopUnrecognized opcode
    have hreads := Reads.unrecognized (w0 := (encode (.noopUnrecognized opcode)).1) (w1 := 0)
    rw [hop] at hreads
    exact hreads (by simpa [Instr.wf] using h)

end Sys2Proof
end

section
/-! PROOFS. The decoder and the encoder agree, and the decoder reads the fields it should (30_encoding.md). -/

namespace Sys2Proof

/-- Settles O1: the row of a command's constructor reads its operands back from the encoded words. -/
theorem decodeEncodeRoundTrip : Obligations.DecodeEncodeRoundTrip := by
  intro i h
  exact (reads_encode h).decode_eq

/-- R54, R70: decoding bytes reassembles the two words they are laid out from. -/
theorem decodeBytes_bytesOfWord (w0 w1 : Word) (rest : List Byte) :
    decodeBytes (bytesOfWord w0 ++ bytesOfWord w1 ++ rest) = .ok (decode w0 w1, rest) := by
  simp [bytesOfWord, decodeBytes, wordOfBytes_fields]

/-- Settles O2: a command's bytes are those of its two words. -/
theorem decodeBytesRoundTrip : Obligations.DecodeBytesRoundTrip := by
  intro i rest h
  rw [encodeBytes, decodeBytes_bytesOfWord, decodeEncodeRoundTrip i h]

/-- Settles O3: only the two no-op rows carry a check, and each holds by the row's own condition. -/
theorem decodeIsWellFormed : Obligations.DecodeIsWellFormed := by
  intro w0 w1
  have hreads := decode_reads w0 w1
  generalize decode w0 w1 = i at hreads
  cases hreads with
  | movewordOther op sub => simpa [Instr.wf] using sub
  | unrecognized op => simpa [Instr.wf] using op
  | _ => rfl

/-- Settles O5: the two no-op rows of the decoder. -/
theorem unrecognisedDecodesAsNoop : Obligations.UnrecognisedDecodesAsNoop :=
  fun _ _ => ⟨fun op => (Reads.unrecognized op).decode_eq, fun op sub => (Reads.movewordOther op sub).decode_eq⟩

/-- Settles O6: both commands are read by the row that the opcode selects, and the fields it reads agree. -/
theorem ignoredFieldsAreDontCare : Obligations.IgnoredFieldsAreDontCare := by
  intro v0 v1 w0 w1 hop
  refine ⟨?_, ?_, ?_, ?_, ?_, ?_, ?_⟩
  · rintro op hflags rfl
    rw [(Reads.mtx (hop.trans op)).decode_eq, (Reads.mtx op).decode_eq,
      bit_eq_of_field_eq hflags (i := 18) (by decide) (by decide),
      bit_eq_of_field_eq hflags (i := 17) (by decide) (by decide),
      bit_eq_of_field_eq hflags (i := 16) (by decide) (by decide)]
  · rintro op hregs rfl
    rw [(Reads.vtx (hop.trans op)).decode_eq, (Reads.vtx op).decode_eq,
      field_eq_of_field_eq hregs (a := 20) (m := 4) (by decide) (by decide),
      field_eq_of_field_eq hregs (a := 16) (m := 4) (by decide) (by decide)]
  · rintro op hnopush rfl
    cases hbit : bit w0 16 with
    | false => rw [(Reads.dl (hop.trans op) (hnopush.trans hbit)).decode_eq, (Reads.dl op hbit).decode_eq]
    | true => rw [(Reads.dlNopush (hop.trans op) (hnopush.trans hbit)).decode_eq, (Reads.dlNopush op hbit).decode_eq]
  · intro op
    rw [(Reads.enddl (hop.trans op)).decode_eq, (Reads.enddl op).decode_eq]
  · rintro op hsubv hsubw hseg rfl
    rw [(Reads.mwSegment (hop.trans op) hsubv).decode_eq, (Reads.mwSegment op hsubw).decode_eq, hseg]
  · intro op
    rw [(Reads.popmtx (hop.trans op)).decode_eq, (Reads.popmtx op).decode_eq]
  · intro op hindices
    rw [(Reads.tri1 (hop.trans op)).decode_eq, (Reads.tri1 op).decode_eq,
      field_eq_of_field_eq hindices (a := 16) (m := 8) (by decide) (by decide),
      field_eq_of_field_eq hindices (a := 8) (m := 8) (by decide) (by decide),
      field_eq_of_field_eq hindices (a := 0) (m := 8) (by decide) (by decide)]

/-- Settles O7, by evaluating the decoder on the eleven words. -/
theorem writtenOutWordsDecode : Obligations.WrittenOutWordsDecode := by
  unfold Obligations.WrittenOutWordsDecode
  decide

end Sys2Proof
end

section
/-! PROOFS. The decoder selects the first row of spec/opcode_table.json that a command matches: a masked comparison
of commands is one comparison for each byte of `w0`, and one of `w1`. -/

namespace Sys2Proof

/-- Two words are the same when their four bytes are. -/
theorem word_eq_iff_fields (v w : Word) :
    v = w ↔ field v 24 8 = field w 24 8 ∧ field v 16 8 = field w 16 8 ∧
      field v 8 8 = field w 8 8 ∧ field v 0 8 = field w 0 8 := by
  refine ⟨fun h => by simp [h], fun ⟨h24, h16, h8, h0⟩ => ?_⟩
  rw [← wordOfBytes_fields v, h24, h16, h8, h0, wordOfBytes_fields]

/-- A command is the concatenation of its upper and lower 32 bits (R7). -/
theorem commandOf_eq_iff (w0 w1 : Word) (c : Command) :
    commandOf w0 w1 = c ↔ w0 = c.extractLsb' 32 32 ∧ w1 = c.extractLsb' 0 32 := by
  constructor
  · rintro rfl
    exact ⟨(extract_append_left w0 w1).symm, BitVec.extractLsb'_append_eq_right.symm⟩
  · rintro ⟨rfl, rfl⟩
    exact BitVec.extractLsb'_append_extractLsb'

/-- Masking a command masks each of its words. -/
theorem commandOf_and (w0 w1 : Word) (m : Command) :
    commandOf w0 w1 &&& m = commandOf (w0 &&& m.extractLsb' 32 32) (w1 &&& m.extractLsb' 0 32) := by
  rw [eq_comm, commandOf_eq_iff, BitVec.extractLsb'_and, BitVec.extractLsb'_and, commandOf, extract_append_left,
    BitVec.extractLsb'_append_eq_right]
  exact ⟨rfl, rfl⟩

theorem field_and (v w : Word) (lo n : Nat) : field (v &&& w) lo n = field v lo n &&& field w lo n :=
  BitVec.extractLsb'_and

/-- A field of a command's `w0`, numbered in the command (R7). -/
theorem field_upper (c : Command) {lo n : Nat} (h : lo + n ≤ 32) :
    field (c.extractLsb' 32 32) lo n = c.extractLsb' (32 + lo) n := by
  apply BitVec.eq_of_getLsbD_eq
  intro i hi
  rw [field_getLsbD, BitVec.getLsbD_extractLsb', BitVec.getLsbD_extractLsb']
  simp [show lo + i < 32 by omega, Nat.add_assoc]

/-- Which commands a row of the table matches, by the bytes of `w0` and by `w1`. -/
theorem commandOf_and_eq_iff (w0 w1 : Word) (mask value : Command) :
    commandOf w0 w1 &&& mask = value ↔
      (field w0 24 8 &&& mask.extractLsb' 56 8 = value.extractLsb' 56 8 ∧
        field w0 16 8 &&& mask.extractLsb' 48 8 = value.extractLsb' 48 8 ∧
        field w0 8 8 &&& mask.extractLsb' 40 8 = value.extractLsb' 40 8 ∧
        field w0 0 8 &&& mask.extractLsb' 32 8 = value.extractLsb' 32 8) ∧
      w1 &&& mask.extractLsb' 0 32 = value.extractLsb' 0 32 := by
  rw [commandOf_and, commandOf_eq_iff, word_eq_iff_fields]
  simp [field_and, field_upper]

/-- The mask of an opcode or a sub-opcode. -/
theorem byte_and_allOnes (b : Byte) : b &&& 255#8 = b := BitVec.and_allOnes

/-- The lowest bit of a byte of a word. -/
theorem field_and_one (w : Word) (lo : Nat) : field w lo 8 &&& 1#8 = if bit w lo then 1#8 else 0#8 := by
  have hbit : (field w lo 8).getLsbD 0 = bit w lo := field_getLsbD w lo 8 0
  rw [← hbit]
  exact BitVec.and_twoPow (field w lo 8) 0

/-- The row that reads a command is the first of the table that the command matches. -/
theorem Reads.firstRow_mnemonic {w0 w1 : Word} {i : Instr} (h : Reads w0 w1 i) :
    (firstRow (commandOf w0 w1)).map TableRow.mnemonic = some i.mnemonic := by
  cases h with
  | unrecognized op =>
    rw [notMem_recognisedOpcodes_iff] at op
    simp [firstRow, opcodeTable, commandOf_and_eq_iff, byte_and_allOnes, Instr.mnemonic, op]
  | _ => simp [firstRow, opcodeTable, commandOf_and_eq_iff, byte_and_allOnes, field_and_one, Instr.mnemonic, *]

/-- Settles O4: `decode` answers what one of the rows reads. -/
theorem decodeSelectsFirstTableRow : Obligations.DecodeSelectsFirstTableRow := by
  intro w0 w1
  exact (decode_reads w0 w1).firstRow_mnemonic

end Sys2Proof
end

section
/-! PROOFS. A step fetches the command that the bytes at `pc` decode to, runs it and answers (30_encoding.md R71). -/

namespace Sys2Proof.Machine

/-- R54: the word at an address is its four bytes, the first the most significant. -/
theorem State.u32At_eq_wordOfBytes (s : State) (a : Nat) :
    s.u32At a = wordOfBytes (imageByte s.input.image a) (imageByte s.input.image (a + 1))
      (imageByte s.input.image (a + 2)) (imageByte s.input.image (a + 3)) := by
  have hvalue : (s.u32At a).toNat =
      (((imageByte s.input.image a).toNat * 256 + (imageByte s.input.image (a + 1)).toNat) * 256 +
      (imageByte s.input.image (a + 2)).toNat) * 256 + (imageByte s.input.image (a + 3)).toNat := by
    rw [s.u32At_toNat]
    simp [imageValue, Nat.mul_comm]
  rw [← wordOfBytes_fields (s.u32At a)]
  congr 1 <;> apply BitVec.eq_of_toNat_eq <;> rw [field_toNat, hvalue] <;> omega

/-- R70, R71: the command at `pc` is the one its eight bytes in the image decode to. -/
theorem State.decodeBytes_fetch (s : State) :
    decodeBytes ((List.range 8).map fun k => imageByte s.input.image (s.pc + k)) = .ok (s.fetched, []) := by
  rw [State.fetched, s.u32At_eq_wordOfBytes, s.u32At_eq_wordOfBytes]
  rfl

/-- R71, R163: retiring counts the command unless it raised. -/
theorem retire_next (t : State) : retire (.next t) = .next (if t.status.isFaulted then t else t.count) := by
  by_cases live : t.live
  · rw [retire_live live, if_neg (by simp [live])]
  · rw [retire_not_live live, if_pos (by simpa [State.live] using live)]

/-- Settles O9: the fetched command is the decoded one, and what it answers is retired. -/
theorem stepRunsDecodedCommand : Obligations.StepRunsDecodedCommand := by
  intro s i hv hr hb hf hdecode
  rw [s.decodeBytes_fetch] at hdecode
  obtain rfl : s.fetched = i := by simpa using hdecode
  rw [step_eq_retire hv hr hb hf]
  obtain ⟨t, ht⟩ := exec_answers s.fetched s.advance
  have ht' : exec s.fetched { s with pc := s.pc + 8 } = .next t := ht
  rw [ht, ht']
  exact retire_next t

/-- Settles O11: the budget check passes and the bounds check of the fetch fails. -/
theorem fetchPastImageRaises : Obligations.FetchPastImageRaises := by
  intro s hv hr hb hpast
  have hfetch : s.fetchError? = some ⟨.outOfRange, s.pc, none⟩ := by
    simp [State.fetchError?, hb, hpast]
  exact ⟨_, step_of_fetchError hv hr hfetch, s.abort_status _⟩

/-- Settles O13: the step aborts, or retires the next state that every command answers. -/
theorem runningStepAnswers : Obligations.RunningStepAnswers := by
  intro s hv hr
  cases hfetch : s.fetchError? with
  | some err => exact ⟨_, step_of_fetchError hv hr hfetch⟩
  | none =>
    obtain ⟨t, ht⟩ := exec_answers s.fetched s.advance
    rw [step_of_fetched hv hr hfetch, ht, retire_next]
    exact ⟨_, rfl⟩

end Sys2Proof.Machine
end

section
/-! PROOFS. The tests of draw triangle as comparisons of exact numbers (40_geometry.md R102, R105, R106). -/

namespace Sys2Proof

/-- An integer of magnitude up to `2^53` is converted exactly. -/
theorem ofInt_key? {i : Int} (hi : i.natAbs ≤ 2 ^ 53) : (Binary64.ofInt i).key? = some (i * 2 ^ 1074) := by
  obtain ⟨e, f, hround, hmag⟩ : ∃ e f,
      Binary64.round (decide (i < 0)) (i.natAbs * 2 ^ 1074) 0 = .finite (decide (i < 0)) e f ∧
        Binary64.magnitude e f = i.natAbs * 2 ^ 1074 := by
    rcases Nat.lt_or_eq_of_le hi with hlt | heq
    · exact round_exact _ hlt (by decide) rfl
    · have hpow (k : Nat) : i.natAbs * 2 ^ k = 1 * 2 ^ (53 + k) := by rw [heq, one_mul, Nat.pow_add]
      rw [hpow]
      exact round_exact _ (by decide) (by decide) rfl
  rw [Binary64.ofInt, ofDyadic_eq_round, Nat.sub_zero, hround, Binary64.key?, hmag, signed_natAbs_mul, Nat.cast_pow,
    Nat.cast_ofNat]

/-- R105: the far plane's depth is exactly 1. -/
theorem farZ_key? : Config.farZ.key? = some (2 ^ 1074) := by
  have hmag : Binary64.magnitude 1023 0 = 2 ^ 1074 := magnitude_two_pow (by decide) rfl
  rw [Binary64.key?, Binary64.signed, hmag, if_neg (by decide), Nat.cast_pow, Nat.cast_ofNat]

end Sys2Proof

namespace Sys2Proof.Machine

/-! ### Comparisons with a number (R128) -/

theorem lt_iff_above {a v : Binary64} {k : Int} (ha : a.key? = some k) : a.lt v = true ↔ above v k := by
  cases hv : v.key? <;> simp [Binary64.lt, above, ha, hv]

theorem lt_iff_below {a v : Binary64} {k : Int} (ha : a.key? = some k) : v.lt a = true ↔ below v k := by
  cases hv : v.key? <;> simp [Binary64.lt, below, ha, hv]

theorem le_iff_atLeast {a v : Binary64} {k : Int} (ha : a.key? = some k) : a.le v = true ↔ atLeast v k := by
  cases hv : v.key? <;> simp [Binary64.le, atLeast, ha, hv]

theorem allBelowZero_iff (a b c : Binary64) : allBelowZero a b c = true ↔ below a 0 ∧ below b 0 ∧ below c 0 := by
  have hzero : Binary64.zero.key? = some 0 := rfl
  simp only [allBelowZero, Bool.and_eq_true, lt_iff_below hzero, and_assoc]

theorem allAtOrBeyond_iff {bound : Nat} (hbound : bound ≤ 2 ^ 53) (a b c : Binary64) :
    allAtOrBeyond bound a b c = true ↔
      atLeast a (bound * 2 ^ 1074) ∧ atLeast b (bound * 2 ^ 1074) ∧ atLeast c (bound * 2 ^ 1074) := by
  simp only [allAtOrBeyond, Bool.and_eq_true, le_iff_atLeast (ofInt_key? (i := bound) hbound), and_assoc]

/-- Settles O36: a signed 16-bit integer is far below `2^53`. -/
theorem coordinateConversionExact : Obligations.CoordinateConversionExact := by
  intro v
  have hlow := v.le_toInt
  have hhigh := v.toInt_lt
  exact ofInt_key? (by omega)

/-- Settles O33: the far plane is compared with each depth in turn. -/
theorem depthRejectMeansAboveOne : Obligations.DepthRejectMeansAboveOne := by
  intro A B C
  simp only [depthReject, Bool.or_eq_true, lt_iff_above farZ_key?, or_assoc]

/-- Settles O34: the four sides in turn, each side's bound being converted exactly. -/
theorem cullMeansSameSideOutside : Obligations.CullMeansSameSideOutside := by
  intro w h A B C hw hh
  simp only [cull, Bool.or_eq_true, allBelowZero_iff, allAtOrBeyond_iff hw, allAtOrBeyond_iff hh, or_assoc]

end Sys2Proof.Machine
end

section
/-! PROOFS. Load vertices (40_geometry.md R100 to R103). -/

namespace Sys2Proof.Machine

/-- R163, R164: a command whose pseudocode raises ends the parse with its own record. -/
theorem raises_of_effect {i : Instr} {s : State} {kind : ErrorKind} (h : effect i s = .error kind) :
    raises i s kind i.opcode := by
  refine ⟨_, ?_, s.abort_status _⟩
  rw [exec_eq_finish, h, finish_error]

/-! ### The loop over the records -/

section
variable {s : State} {F : Mtx} {base v0 n i : Nat} {vr vr' : Vector (Slot Vertex) 64}

/-- R101, R103: a load that completes found each of its records in the image, and its register holds it transformed. -/
theorem loadRecords_target (h : s.loadRecords F base v0 n i vr = .ok vr') {j : Nat} (hij : i ≤ j) (hjn : j < i + n) :
    s.inImage (base + 16 * j) 16 ∧ ∃ hk : v0 + j < 64, vr'[v0 + j] = .written (s.recordVertex F (base + 16 * j)) := by
  induction n generalizing i vr with
  | zero => omega
  | succ n ih =>
    simp only [State.loadRecords] at h
    split at h
    · rename_i hreg
      split at h
      · rename_i hrecord
        rcases Nat.eq_or_lt_of_le hij with rfl | hlt
        · refine ⟨hrecord, hreg, ?_⟩
          rw [loadRecords_other h (v0 + i) hreg (by omega), Vector.getElem_set_self]
        · exact ih h hlt (by omega)
      · cases h
    · cases h

/-- R103: a load completes when its registers exist and its last record ends in the image. -/
theorem loadRecords_completes (hv : v0 + i + n ≤ 64) (hin : base + 16 * (i + n) ≤ s.input.memSize) :
    ∃ vr', s.loadRecords F base v0 n i vr = .ok vr' := by
  induction n generalizing i vr with
  | zero => exact ⟨vr, rfl⟩
  | succ n ih =>
    have hreg : v0 + i < 64 := by omega
    have hrecord : s.inImage (base + 16 * i) 16 := by unfold State.inImage; omega
    rw [State.loadRecords, dif_pos hreg, if_pos hrecord]
    exact ih (by omega) (by omega)

end

/-! ### The command -/

/-- R73: `v0` and `nm1` name registers that exist. -/
theorem vtx_registers_exist (nm1 v0 : BitVec 4) : v0.toNat + 0 + (nm1.toNat + 1) ≤ 64 := by
  have hnm1 := nm1.isLt
  have hv0 := v0.isLt
  omega

/-- Settles O26: the loop completes, and each register is one of its targets or none. -/
theorem loadVerticesWritesRegisters : Obligations.LoadVerticesWritesRegisters := by
  intro s nm1 v0 addr F hF hin
  rw [← Nat.zero_add (nm1.toNat + 1)] at hin
  obtain ⟨vr, hload⟩ := loadRecords_completes (F := F) (vr := s.vr) (vtx_registers_exist nm1 v0) hin
  rw [exec_vtx, loadVertices_written hF, hload]
  refine congrArg (fun vr => Host.Outcome.next (s.withVr vr)) (Vector.ext fun k hk => ?_)
  rw [Vector.getElem_ofFn]
  split
  · rename_i htarget
    obtain ⟨hlow, hhigh⟩ : v0.toNat ≤ k ∧ k < v0.toNat + (nm1.toNat + 1) := htarget
    obtain ⟨j, rfl⟩ := Nat.exists_eq_add_of_le hlow
    obtain ⟨-, _, hvertex⟩ := loadRecords_target hload (Nat.zero_le j) (by omega)
    rw [hvertex]
    simp only [Nat.add_sub_cancel_left]
    rfl
  · rename_i hother
    exact loadRecords_other hload k hk (by simp only at hother; omega)

/-- Settles O27: the final matrix is read first; then a load that completed would have found its last record in the
image. -/
theorem loadVerticesErrors : Obligations.LoadVerticesErrors := by
  intro s nm1 v0 addr
  refine ⟨fun hF => raises_of_effect (loadVertices_unwritten hF nm1 v0 addr), fun hF hpast => ?_⟩
  cases hwritten : s.finalMtx with
  | unwritten => exact absurd hwritten hF
  | written F =>
    apply raises_of_effect (i := .vtx nm1 v0 addr)
    rw [effect, loadVertices_written hwritten]
    cases hload : s.loadRecords F (s.resolve addr) v0.toNat (nm1.toNat + 1) 0 s.vr with
    | error kind => rw [loadRecords_eq_error (vtx_registers_exist nm1 v0) hload]; rfl
    | ok vr =>
      obtain ⟨hlast, -⟩ := loadRecords_target hload (Nat.zero_le nm1.toNat) (by omega)
      unfold State.inImage at hlast
      omega

/-- Settles O28: a completed load replaced the vertex registers, and left those that are no targets. -/
theorem loadVerticesFrame : Obligations.LoadVerticesFrame := by
  intro s t nm1 v0 addr h live
  rw [exec_vtx] at h
  obtain ⟨F, vr, -, hload, rfl⟩ := loadVertices_eq_ok (finish_live h live)
  refine ⟨fun k hk => loadRecords_other hload k.val k.isLt (by omega), rfl, rfl, rfl, rfl, ?_, ?_, rfl, ?_⟩
  · exact ⟨rfl, rfl, rfl, rfl⟩
  · exact ⟨rfl, rfl, rfl, rfl⟩
  · exact ⟨rfl, rfl, rfl, fun _ => rfl⟩

end Sys2Proof.Machine
end

section
/-! PROOFS. Draw triangle (40_geometry.md R104 to R107). -/

namespace Sys2Proof.Machine

section
variable {s : State} {A B C : Vertex}

/-! ### Index bytes -/

/-- R104: ten times the number of a written register names that register. -/
theorem indexedVertex_of_written {k : Fin 26} (h : s.vr[k.val] = .written A) :
    s.indexedVertex (BitVec.ofNat 8 (10 * k.val)) = .ok A := by
  have hbyte : (BitVec.ofNat 8 (10 * k.val)).toNat = 10 * k.val := by
    rw [BitVec.toNat_ofNat]
    omega
  have hmultiple : ¬ 10 * k.val % 10 ≠ 0 := by omega
  have hregister : 10 * k.val / 10 = k.val := by omega
  have hlt : k.val < 64 := by omega
  simp only [State.indexedVertex, hbyte, hmultiple, hregister, hlt, h, if_false, dif_pos]

theorem indexError?_of_ok {f : Byte} (h : s.indexedVertex f = .ok A) : s.indexError? f = none := by
  obtain ⟨hmultiple, hlt, hwritten⟩ := indexedVertex_eq_ok h
  simp [State.indexError?, hmultiple, hwritten]

theorem indexError?_of_error {f : Byte} {kind : ErrorKind} (h : s.indexedVertex f = .error kind) :
    s.indexError? f = some kind := by
  unfold State.indexedVertex at h
  unfold State.indexError?
  split at h
  · rename_i hmultiple
    rw [if_pos hmultiple, Except.error.inj h]
  · rename_i hmultiple
    rw [dif_pos (by omega)] at h
    rw [if_neg hmultiple]
    split at h
    · rename_i hunwritten
      rw [if_pos hunwritten, Except.error.inj h]
    · cases h

/-! ### Drawing -/

theorem draw_of_suppressed (h : s.suppressed A B C = true) : s.draw A B C = s := if_pos h

theorem draw_of_passed (h : s.suppressed A B C = false) : s.draw A B C = s.emit A B C := if_neg (by simp [h])

/-- R107: a drawn triangle, emitted or not, leaves the vertex registers, the matrices and the segments. -/
theorem State.draw_keeps (s : State) (A B C : Vertex) :
    (s.draw A B C).vr = s.vr ∧ s.sameMatrices (s.draw A B C) ∧ s.sameSegments (s.draw A B C) := by
  unfold State.draw
  split <;> exact ⟨rfl, ⟨rfl, rfl, rfl, rfl⟩, rfl⟩

theorem suppressed_eq_true_iff : s.suppressed A B C = true ↔
    depthReject A B C = true ∨ cull s.input.width s.input.height A B C = true := by
  simp only [State.suppressed, Bool.or_eq_true]

/-- R107: three written registers are drawn. -/
theorem exec_tri1_of_written {a b c : Fin 26} (hA : s.vr[a.val] = .written A) (hB : s.vr[b.val] = .written B)
    (hC : s.vr[c.val] = .written C) :
    exec (.tri1 (BitVec.ofNat 8 (10 * a.val)) (BitVec.ofNat 8 (10 * b.val)) (BitVec.ofNat 8 (10 * c.val))) s =
      .next (s.draw A B C) := by
  rw [exec_tri1, State.drawTriangle, indexedVertex_of_written hA, indexedVertex_of_written hB,
    indexedVertex_of_written hC, finish_ok]

/-- R104, R107: the first index byte in error decides the error. -/
theorem drawTriangle_of_indexError {ia ib ic : Byte} {kind : ErrorKind}
    (h : (s.indexError? ia).or ((s.indexError? ib).or (s.indexError? ic)) = some kind) :
    s.drawTriangle ia ib ic = .error kind := by
  unfold State.drawTriangle
  cases hA : s.indexedVertex ia with
  | error kindA => simpa [indexError?_of_error hA] using h
  | ok A =>
    cases hB : s.indexedVertex ib with
    | error kindB => simpa [indexError?_of_ok hA, indexError?_of_error hB] using h
    | ok B =>
      cases hC : s.indexedVertex ic with
      | error kindC => simpa [indexError?_of_ok hA, indexError?_of_ok hB, indexError?_of_error hC] using h
      | ok C => simp [indexError?_of_ok hA, indexError?_of_ok hB, indexError?_of_ok hC] at h

end

/-- Settles O29: the triangle passes, so it is emitted. -/
theorem triangleEmits : Obligations.TriangleEmits := by
  intro s a b c A B C hA hB hC hdepth hcull
  have hpassed : s.suppressed A B C = false := by rw [State.suppressed, hdepth, hcull, Bool.or_false]
  rw [exec_tri1_of_written hA hB hC, draw_of_passed hpassed]
  rfl

/-- Settles O30: a triangle that fails either test is suppressed. -/
theorem triangleSuppressed : Obligations.TriangleSuppressed := by
  intro s a b c A B C hA hB hC htest
  rw [exec_tri1_of_written hA hB hC, draw_of_suppressed (suppressed_eq_true_iff.mpr htest)]

/-- Settles O31: the index bytes are checked before anything is drawn. -/
theorem triangleIndexErrors : Obligations.TriangleIndexErrors := by
  intro s ia ib ic kind h
  exact raises_of_effect (i := .tri1 ia ib ic) (drawTriangle_of_indexError h)

/-- Settles O32: a suppressed triangle changes nothing, and an emitted one the outputs and their counters alone. -/
theorem triangleFrame : Obligations.TriangleFrame := by
  intro s t ia ib ic h live
  rw [exec_tri1] at h
  obtain ⟨A, B, C, -, -, -, rfl⟩ := drawTriangle_eq_ok (finish_live h live)
  obtain ⟨hvr, hmatrices, hsegments⟩ := s.draw_keeps A B C
  have hwrites := draw_writes s A B C
  refine ⟨hvr, hmatrices, hwrites.sameControl, hsegments, hwrites.sameParse, ?_⟩
  rcases hwrites.outputs with ⟨hvout, hfout, -, -⟩ | ⟨A, B, C, -, hemit⟩
  · exact ⟨⟨[], by simp [hvout]⟩, [], by simp [hfout]⟩
  · rw [hemit]
    exact ⟨⟨[A, B, C], rfl, .inr rfl⟩, _, rfl, Nat.le_refl 1⟩

end Sys2Proof.Machine
end

section
/-! PROOFS. Rounding gives the nearest binary64 number, ties to even, with an infinity standing at 2^1024
(41_matrix.md R121, R128, D3). -/

namespace Sys2Proof

open Binary64

/-! ### Magnitudes of at most 53 significant bits -/

/-- A magnitude of at most 53 significant bits: a whole number of the last places of a 53-bit number of its size. -/
def FitsPlace (n : Nat) : Prop := 2 ^ (n.log2 - 52) ∣ n

theorem FitsPlace.dvd {n p : Nat} (hn : FitsPlace n) (hp : 2 ^ (p + 52) ≤ n) : 2 ^ p ∣ n := by
  have hne : n ≠ 0 := ((Nat.two_pow_pos (p + 52)).trans_le hp).ne'
  have hlog : p + 52 ≤ n.log2 := (Nat.le_log2 hne).2 hp
  exact (Nat.pow_dvd_pow 2 (by omega)).trans hn

theorem fitsPlace_mul_two_pow {n : Nat} (hn : n ≤ 2 ^ 53) (j : Nat) : FitsPlace (n * 2 ^ j) := by
  rcases Nat.lt_or_eq_of_le hn with hlt | rfl
  · exact (Nat.pow_dvd_pow 2 (log2_sub_le hlt j)).mul_left n
  · rw [← Nat.pow_add, FitsPlace, Nat.log2_two_pow]
    exact Nat.pow_dvd_pow 2 (by omega)

theorem fitsPlace_two_pow (j : Nat) : FitsPlace (2 ^ j) := by
  simpa using fitsPlace_mul_two_pow (n := 1) (by decide) j

theorem magnitude_fitsPlace (e : Fin 2047) (f : BitVec 52) : FitsPlace (magnitude e f) := by
  have hf := f.isLt
  unfold magnitude
  split
  · simpa using fitsPlace_mul_two_pow (n := f.toNat) (by omega) 0
  · rw [Nat.shiftLeft_eq]
    exact fitsPlace_mul_two_pow (by omega) _

/-- The exponent of the place an infinity stands at, 2^1024 in units of 2^-1074. -/
@[irreducible] def infExponent : Nat := 2098

/-- The place an infinity stands at. -/
@[irreducible] def infPlace : Nat := 2 ^ infExponent

theorem key?_inf (neg : Bool) : (inf neg).key? = some (signed neg infPlace) := by
  rw [key?, infPlace, ← Nat.one_shiftLeft, infExponent]

theorem infPlace_fitsPlace : FitsPlace infPlace := by
  rw [infPlace]
  exact fitsPlace_two_pow _

theorem magnitude_lt_infPlace (e : Fin 2047) (f : BitVec 52) : magnitude e f < infPlace := by
  rw [infPlace]
  exact (magnitude_lt e f).trans_le (Nat.pow_le_pow_right Nat.two_pos (by rw [infExponent]; omega))

/-- Where a number stands: at a magnitude of at most 53 significant bits, up to the infinity's place, on the side of a
given sign or strictly on the other. -/
theorem key?_cases (neg : Bool) {c : Binary64} {k : Int} (h : c.key? = some k) :
    ∃ n, FitsPlace n ∧ n ≤ infPlace ∧ (k = signed neg n ∨ 0 < n ∧ k = signed (!neg) n) := by
  obtain ⟨s, n, rfl, hn, hle⟩ : ∃ s n, k = signed s n ∧ FitsPlace n ∧ n ≤ infPlace := by
    cases c with
    | nan => cases h
    | inf s => exact ⟨s, _, (Option.some.inj (key?_inf s ▸ h)).symm, infPlace_fitsPlace, le_rfl⟩
    | finite s e f =>
      exact ⟨s, _, (Option.some.inj h).symm, magnitude_fitsPlace e f, (magnitude_lt_infPlace e f).le⟩
  refine ⟨n, hn, hle, ?_⟩
  rcases Nat.eq_zero_or_pos n with rfl | hpos
  · simp [signed]
  · rcases Bool.eq_or_eq_not s neg with rfl | rfl
    · exact .inl rfl
    · exact .inr ⟨hpos, rfl⟩

/-- Reading a magnitude of at most 53 significant bits: exact below 2^1024, an infinity from there on. -/
theorem ofMagnitude_cases (neg : Bool) {n : Nat} (hn : FitsPlace n) :
    (∃ e f, ofMagnitude neg n = .finite neg e f ∧ magnitude e f = n) ∨
      infPlace ≤ n ∧ ofMagnitude neg n = .inf neg := by
  by_cases hlog : n.log2 < infExponent
  · exact .inl (ofMagnitude_key? neg (by rwa [infExponent] at hlog) hn)
  · have hne : n ≠ 0 := by rintro rfl; simp [infExponent] at hlog
    refine .inr ⟨?_, ofMagnitude_overflow neg (by rw [infExponent] at hlog; omega)⟩
    rw [infPlace]
    exact (Nat.le_log2 hne).1 (Nat.le_of_not_lt hlog)

theorem ofMagnitude_key?_eq (neg : Bool) {n : Nat} (hn : FitsPlace n) :
    (ofMagnitude neg n).key? = some (signed neg (min n infPlace : Nat)) := by
  rcases ofMagnitude_cases neg hn with ⟨e, f, hfin, rfl⟩ | ⟨hle, hinf⟩
  · rw [hfin, min_eq_left (magnitude_lt_infPlace e f).le, key?]
  · rw [hinf, min_eq_right hle, key?_inf]

/-! ### The last place kept -/

/-- Rounding gives the nearest whole number of places, and of two equally near the even one. -/
theorem roundShift_dist (m d n : Nat) :
    |(roundShift m d * 2 ^ d : Int) - m| ≤ |(n * 2 ^ d : Int) - m| ∧
      (n ≠ roundShift m d → |(n * 2 ^ d : Int) - m| = |(roundShift m d * 2 ^ d : Int) - m| →
        roundShift m d % 2 = 0) := by
  obtain ⟨hlow, hhigh, htie⟩ := roundShift_nearest m d
  rcases eq_or_ne n (roundShift m d) with rfl | hne
  · simp
  · have hapart : n * 2 ^ d + 2 ^ d ≤ roundShift m d * 2 ^ d ∨ roundShift m d * 2 ^ d + 2 ^ d ≤ n * 2 ^ d := by
      rcases Nat.lt_or_gt_of_ne hne with hlt | hgt
      · exact .inl (by simpa [Nat.add_mul] using Nat.mul_le_mul_right (2 ^ d) (Nat.succ_le_of_lt hlt))
      · exact .inr (by simpa [Nat.add_mul] using Nat.mul_le_mul_right (2 ^ d) (Nat.succ_le_of_lt hgt))
    zify at hlow hhigh htie hapart
    generalize (roundShift m d : Int) * 2 ^ d = a at *
    generalize (n : Int) * 2 ^ d = b at *
    generalize (2 : Int) ^ d = w at *
    simp only [Int.abs_eq_natAbs]
    omega

theorem roundShift_le {m d b : Nat} (hm : m < b * 2 ^ d) : roundShift m d ≤ b := by
  obtain ⟨-, hhigh, -⟩ := roundShift_nearest m d
  by_contra hlt
  have := Nat.mul_le_mul_right (2 ^ d) (show b + 1 ≤ roundShift m d by omega)
  rw [Nat.add_mul] at this
  omega

theorem le_roundShift {m d b : Nat} (hm : b * 2 ^ d ≤ m) : b ≤ roundShift m d := by
  obtain ⟨hlow, -, -⟩ := roundShift_nearest m d
  have hp := Nat.two_pow_pos d
  by_contra hlt
  have := Nat.mul_le_mul_right (2 ^ d) (show roundShift m d + 1 ≤ b by omega)
  rw [Nat.add_mul] at this
  omega

/-- The last place `round` keeps of `m / 2^sh`: one unit, or the 53rd significant bit. -/
def lastPlace (m sh : Nat) : Nat := max sh (m.log2 - 52)

/-- The magnitude `round` reads its number from. -/
def roundedMagnitude (m sh : Nat) : Nat := roundShift m (lastPlace m sh) * 2 ^ (lastPlace m sh - sh)

theorem le_lastPlace (m sh : Nat) : sh ≤ lastPlace m sh := le_max_left _ _

theorem round_eq (neg : Bool) (m sh : Nat) : round neg m sh = ofMagnitude neg (roundedMagnitude m sh) := by
  rw [roundedMagnitude, ← Nat.shiftLeft_eq]
  rfl

theorem roundedMagnitude_mul (m sh : Nat) :
    roundedMagnitude m sh * 2 ^ sh = roundShift m (lastPlace m sh) * 2 ^ lastPlace m sh := by
  rw [roundedMagnitude, Nat.mul_assoc, ← Nat.pow_add, Nat.sub_add_cancel (le_lastPlace m sh)]

theorem roundShift_lastPlace_le (m sh : Nat) : roundShift m (lastPlace m sh) ≤ 2 ^ 53 := by
  apply roundShift_le
  rw [← Nat.pow_add]
  exact Nat.lt_log2_self.trans_le (Nat.pow_le_pow_right (by decide) (by unfold lastPlace; omega))

/-- A last place above one unit is the 53rd significant bit. -/
theorem le_of_lastPlace_ne {m sh : Nat} (h : lastPlace m sh ≠ sh) : 2 ^ 52 * 2 ^ lastPlace m sh ≤ m := by
  have hlog : 52 + lastPlace m sh = m.log2 := by unfold lastPlace at h ⊢; omega
  have hne : m ≠ 0 := by rintro rfl; simp at hlog
  rw [← Nat.pow_add, hlog]
  exact Nat.log2_self_le hne

theorem le_roundShift_lastPlace (m sh : Nat) :
    lastPlace m sh - sh = 0 ∨ 2 ^ 52 ≤ roundShift m (lastPlace m sh) := by
  by_cases h : lastPlace m sh = sh
  · exact .inl (by omega)
  · exact .inr (le_roundShift (le_of_lastPlace_ne h))

theorem roundedMagnitude_fitsPlace (m sh : Nat) : FitsPlace (roundedMagnitude m sh) :=
  fitsPlace_mul_two_pow (roundShift_lastPlace_le m sh) _

/-! ### The nearest number -/

/-- No magnitude of at most 53 significant bits is nearer, and at a tie the rounded one's last place is even. -/
theorem roundedMagnitude_nearest {n : Nat} (hn : FitsPlace n) (m sh : Nat) :
    |(roundedMagnitude m sh * 2 ^ sh : Int) - m| ≤ |(n * 2 ^ sh : Int) - m| ∧
      (n ≠ roundedMagnitude m sh → |(n * 2 ^ sh : Int) - m| = |(roundedMagnitude m sh * 2 ^ sh : Int) - m| →
        roundShift m (lastPlace m sh) % 2 = 0) := by
  have hsplit : 2 ^ lastPlace m sh = 2 ^ (lastPlace m sh - sh) * 2 ^ sh := by
    rw [← Nat.pow_add, Nat.sub_add_cancel (le_lastPlace m sh)]
  have hrounded := roundedMagnitude_mul m sh
  zify at hrounded
  rw [hrounded]
  by_cases hdvd : 2 ^ (lastPlace m sh - sh) ∣ n
  · obtain ⟨j, rfl⟩ := hdvd
    obtain ⟨hnear, htie⟩ := roundShift_dist m (lastPlace m sh) j
    have hj : ((2 ^ (lastPlace m sh - sh) * j : Nat) * 2 ^ sh : Int) = j * 2 ^ lastPlace m sh := by
      zify at hsplit
      rw [hsplit]
      push_cast
      ring
    rw [hj]
    refine ⟨hnear, fun hne => htie fun hjq => hne ?_⟩
    rw [hjq, roundedMagnitude, Nat.mul_comm]
  · have hplace : lastPlace m sh ≠ sh := fun h => hdvd (by simp [h])
    have hle := le_of_lastPlace_ne hplace
    have hlt : n * 2 ^ sh < 2 ^ 52 * 2 ^ lastPlace m sh := by
      rw [hsplit, ← Nat.mul_assoc, ← Nat.pow_add, Nat.add_comm 52]
      exact Nat.mul_lt_mul_of_pos_right (Nat.lt_of_not_le fun h => hdvd (hn.dvd h)) (Nat.two_pow_pos sh)
    have hnear := (roundShift_dist m (lastPlace m sh) (2 ^ 52)).1
    rw [Nat.cast_pow] at hnear
    zify at hle hlt
    generalize (roundShift m (lastPlace m sh) : Int) * 2 ^ lastPlace m sh = r at *
    generalize ((2 : Nat) : Int) ^ 52 * 2 ^ lastPlace m sh = b at *
    generalize (n : Int) * 2 ^ sh = c at *
    simp only [Int.abs_eq_natAbs] at *
    omega

/-- So is the number it is read as, an infinity standing at 2^1024. -/
theorem min_roundedMagnitude_nearest {n : Nat} (hn : FitsPlace n) (hle : n ≤ infPlace) (m sh : Nat) :
    |((min (roundedMagnitude m sh) infPlace : Nat) * 2 ^ sh : Int) - m| ≤ |(n * 2 ^ sh : Int) - m| := by
  have hnear := (roundedMagnitude_nearest hn m sh).1
  have htop := (roundedMagnitude_nearest infPlace_fitsPlace m sh).1
  rcases le_or_gt (roundedMagnitude m sh) infPlace with hr | hr
  · rwa [min_eq_left hr]
  · rw [min_eq_right hr.le]
    have hlow := Nat.mul_le_mul_right (2 ^ sh) hle
    have hhigh := Nat.mul_lt_mul_of_pos_right hr (Nat.two_pow_pos sh)
    zify at hlow hhigh
    generalize (n : Int) * 2 ^ sh = c at *
    generalize (infPlace : Int) * 2 ^ sh = t at *
    generalize (roundedMagnitude m sh : Int) * 2 ^ sh = b at *
    simp only [Int.abs_eq_natAbs] at *
    omega

/-- A magnitude with an even last place is read with an even fraction. -/
theorem ofMagnitude_fraction_even {q j : Nat} (heven : q % 2 = 0) (hq : q ≤ 2 ^ 53) (hj : j = 0 ∨ 2 ^ 52 ≤ q)
    {neg neg' : Bool} {e : Fin 2047} {f : BitVec 52} (h : ofMagnitude neg (q * 2 ^ j) = .finite neg' e f) :
    f.toNat % 2 = 0 := by
  have hp := Nat.two_pow_pos j
  unfold ofMagnitude at h
  split at h
  · rename_i hsmall
    cases h
    have hj0 : j = 0 := hj.resolve_right fun hlow => by
      have := Nat.mul_le_mul hlow hp
      omega
    simp only [hj0, BitVec.toNat_ofNat]
    omega
  · rename_i hlarge
    split at h
    · cases h
      have hlow : 2 ^ 52 ≤ q := by
        rcases hj with rfl | hlow
        · simpa using hlarge
        · exact hlow
      rcases Nat.lt_or_eq_of_le hq with hlt | rfl
      · have hlog : (q * 2 ^ j).log2 - 52 = j := by
          have hle : 2 ^ (52 + j) ≤ q * 2 ^ j := by
            rw [Nat.pow_add]
            exact Nat.mul_le_mul_right _ hlow
          have := (Nat.le_log2 (by omega)).2 hle
          have := log2_sub_le hlt j
          omega
        rw [hlog, Nat.shiftRight_eq_div_pow, Nat.mul_div_cancel _ hp, BitVec.toNat_ofNat]
        omega
      · have hlog : (2 ^ 53 * 2 ^ j).log2 - 52 = j + 1 := by
          rw [← Nat.pow_add, Nat.log2_two_pow]
          omega
        rw [hlog, Nat.shiftRight_eq_div_pow, ← Nat.pow_add, show 53 + j = 52 + (j + 1) by omega, Nat.pow_add,
          Nat.mul_div_cancel _ (Nat.two_pow_pos _)]
        decide
    · cases h

theorem abs_signed_mul_sub (neg : Bool) (a b : Nat) (w : Int) :
    |signed neg a * w - signed neg b| = |a * w - b| := by
  cases neg
  · rfl
  · rw [← abs_neg]
    congr 1
    simp only [signed, if_true]
    ring

theorem abs_signed_not_mul_sub (neg : Bool) (a b : Nat) (w : Int) :
    |signed (!neg) a * w - signed neg b| = |a * w + b| := by
  cases neg
  · rw [← abs_neg]
    congr 1
    simp [signed]
    ring
  · simp [signed]

/-- `round` gives the number nearest to `v / 2^sh`, for any number `c`, and of two equally near the one with the
even fraction. -/
theorem round_nearest {neg : Bool} {m : Nat} (sh : Nat) {v k : Int} {c : Binary64} (hv : signed neg m = v)
    (hc : c.key? = some k) :
    ∃ r, (round neg m sh).key? = some r ∧ |r * 2 ^ sh - v| ≤ |k * 2 ^ sh - v| ∧
      ∀ neg' e f, round neg m sh = .finite neg' e f → k ≠ r →
        |k * 2 ^ sh - v| = |r * 2 ^ sh - v| → f.toNat % 2 = 0 := by
  obtain ⟨n, hn, hle, hk⟩ := key?_cases neg hc
  have hfits := roundedMagnitude_fitsPlace m sh
  refine ⟨_, by rw [round_eq, ofMagnitude_key?_eq neg hfits], ?_⟩
  have hnear := min_roundedMagnitude_nearest hn hle m sh
  rcases hk with rfl | ⟨hpos, rfl⟩
  · rw [← hv, abs_signed_mul_sub, abs_signed_mul_sub]
    refine ⟨hnear, fun neg' e f hfin hne htie => ?_⟩
    rw [round_eq] at hfin
    rcases ofMagnitude_cases neg hfits with ⟨e', f', -, hmag⟩ | ⟨-, hinf⟩
    · have hlt := hmag ▸ magnitude_lt_infPlace e' f'
      rw [min_eq_left hlt.le] at hne htie
      exact ofMagnitude_fraction_even ((roundedMagnitude_nearest hn m sh).2 (fun h => hne (by rw [h])) htie)
        (roundShift_lastPlace_le m sh) (le_roundShift_lastPlace m sh) hfin
    · rw [hinf] at hfin
      cases hfin
  · have hzero := min_roundedMagnitude_nearest (n := 0) (Nat.dvd_zero _) (Nat.zero_le _) m sh
    have hcross : |(n * 2 ^ sh : Int) + m| > |((0 : Nat) * 2 ^ sh : Int) - m| := by
      have hn : (0 : Int) < n * 2 ^ sh := by positivity
      simp only [Nat.cast_zero, zero_mul, zero_sub, abs_neg, Nat.abs_cast]
      exact (lt_add_of_pos_left _ hn).trans_le (le_abs_self _)
    rw [← hv, abs_signed_mul_sub, abs_signed_not_mul_sub]
    have hlt := hzero.trans_lt hcross
    exact ⟨hlt.le, fun _ _ _ _ _ htie => absurd htie hlt.ne'⟩

end Sys2Proof

namespace Sys2Proof.Machine

open Binary64

theorem exists_finite_of_isFiniteNum {a : Binary64} (h : isFiniteNum a = true) : ∃ s e f, a = .finite s e f := by
  cases a with
  | finite s e f => exact ⟨s, e, f, rfl⟩
  | nan => cases h
  | inf s => cases h

theorem add_finite_of_zero {s t : Bool} {e e' : Fin 2047} {f f' : BitVec 52} {x y : Int}
    (hx : (finite s e f).key? = some x) (hy : (finite t e' f').key? = some y) (h0 : x + y = 0) :
    (finite s e f).add (.finite t e' f') = .finite (s && t) 0 0 := by
  cases hx
  cases hy
  exact if_pos h0

theorem add_finite_of_ne_zero {s t : Bool} {e e' : Fin 2047} {f f' : BitVec 52} {x y : Int}
    (hx : (finite s e f).key? = some x) (hy : (finite t e' f').key? = some y) (h0 : x + y ≠ 0) :
    (finite s e f).add (.finite t e' f') = round (decide (x + y < 0)) (x + y).natAbs 0 := by
  cases hx
  cases hy
  exact if_neg h0

theorem mul_finite (s t : Bool) (e e' : Fin 2047) (f f' : BitVec 52) :
    (finite s e f).mul (.finite t e' f') = round (s ^^ t) (magnitude e f * magnitude e' f') 1074 := rfl

theorem signed_xor_mul (s t : Bool) (a b : Nat) : signed (s ^^ t) (a * b) = signed s a * signed t b := by
  cases s <;> cases t <;> simp [signed]

/-- R121, D3: what rounding an exact sum once gives. -/
theorem add_nearest {a b c : Binary64} {x y k : Int} (ha : isFiniteNum a = true) (hb : isFiniteNum b = true)
    (hx : a.key? = some x) (hy : b.key? = some y) (hc : c.key? = some k) :
    ∃ r, (a.add b).key? = some r ∧ |r - (x + y)| ≤ |k - (x + y)| ∧
      ∀ neg e f, a.add b = .finite neg e f → k ≠ r → |k - (x + y)| = |r - (x + y)| → f.toNat % 2 = 0 := by
  obtain ⟨s, e, f, rfl⟩ := exists_finite_of_isFiniteNum ha
  obtain ⟨t, e', f', rfl⟩ := exists_finite_of_isFiniteNum hb
  by_cases h0 : x + y = 0
  · rw [add_finite_of_zero hx hy h0, h0]
    refine ⟨0, by cases s <;> cases t <;> rfl, by simp, fun neg e f h _ _ => ?_⟩
    cases h
    rfl
  · rw [add_finite_of_ne_zero hx hy h0]
    have hexact : signed (decide (x + y < 0)) (x + y).natAbs = x + y := by
      simpa using signed_natAbs_mul (x + y) 1
    simpa only [pow_zero, mul_one] using round_nearest 0 hexact hc

/-- R121, D3: what rounding an exact product once gives. -/
theorem mul_nearest {a b c : Binary64} {x y k : Int} (ha : isFiniteNum a = true) (hb : isFiniteNum b = true)
    (hx : a.key? = some x) (hy : b.key? = some y) (hc : c.key? = some k) :
    ∃ r, (a.mul b).key? = some r ∧ |r * 2 ^ 1074 - x * y| ≤ |k * 2 ^ 1074 - x * y| ∧
      ∀ neg e f, a.mul b = .finite neg e f → k ≠ r → |k * 2 ^ 1074 - x * y| = |r * 2 ^ 1074 - x * y| →
        f.toNat % 2 = 0 := by
  obtain ⟨s, e, f, rfl⟩ := exists_finite_of_isFiniteNum ha
  obtain ⟨t, e', f', rfl⟩ := exists_finite_of_isFiniteNum hb
  cases hx
  cases hy
  rw [mul_finite]
  exact round_nearest 1074 (signed_xor_mul s t _ _) hc

/-- Settles O37: a sum is rounded once, and the sums of special operands are the branches of `add`. -/
theorem addRoundsToNearestEven : Obligations.AddRoundsToNearestEven := by
  refine ⟨fun a b c x y k => add_nearest, fun s t e e' f f' x y => add_finite_of_zero, fun a => ?_, fun s t => rfl,
    fun s b hb => ?_⟩
  · cases a <;> exact ⟨rfl, rfl⟩
  · obtain ⟨t, e, f, rfl⟩ := exists_finite_of_isFiniteNum hb
    exact ⟨rfl, rfl⟩

theorem signed_eq_zero_iff (neg : Bool) (n : Nat) : signed neg n = 0 ↔ n = 0 := by
  cases neg <;> simp [signed]

/-- Settles O38: a product is rounded once with the sign of the exact product, and the products of special operands
are the branches of `mul`. -/
theorem mulRoundsToNearestEven : Obligations.MulRoundsToNearestEven := by
  refine ⟨fun a b c x y k => mul_nearest, fun s t e e' f f' => round_sign _ _ _, fun a => ?_, fun s t => rfl,
    fun s t e f x hx => ?_⟩
  · cases a <;> exact ⟨rfl, rfl⟩
  · cases hx
    simp only [ne_eq, signed_eq_zero_iff]
    exact ⟨fun h0 => ⟨if_pos h0, if_pos h0⟩, fun h0 => ⟨if_neg h0, if_neg h0⟩⟩

end Sys2Proof.Machine
end

section
/-! PROOFS. Exact sums and products, the product of matrices, and bounds of its elements (41_matrix.md R120, R121,
R126, R128). -/

namespace Sys2Proof.Machine

open Binary64

/-! ### Exact results -/

theorem key?_zero : Binary64.zero.key? = some 0 := rfl

/-- A number below the infinity's place is finite. -/
theorem isFiniteNum_of_key?_lt {a : Binary64} {x : Int} (hx : a.key? = some x) (hlt : |x| < infPlace) :
    isFiniteNum a = true := by
  cases a with
  | nan => cases hx
  | inf s =>
    rw [key?_inf, Option.some.injEq] at hx
    subst hx
    cases s <;> simp [signed] at hlt
  | finite s e f => rfl

theorem abs_key?_lt {a : Binary64} {x : Int} (ha : isFiniteNum a = true) (hx : a.key? = some x) : |x| < infPlace := by
  obtain ⟨s, e, f, rfl⟩ := exists_finite_of_isFiniteNum ha
  cases hx
  have := magnitude_lt_infPlace e f
  cases s <;> simpa [signed]

/-- A number that stands where a finite number does is finite. -/
theorem isFiniteNum_of_key?_eq {a c : Binary64} {x : Int} (hc : isFiniteNum c = true) (hcx : c.key? = some x)
    (hx : a.key? = some x) : isFiniteNum a = true :=
  isFiniteNum_of_key?_lt hx (abs_key?_lt hc hcx)

/-- A finite number that stands at an exact value. -/
def HasKey (a : Binary64) (x : Int) : Prop := isFiniteNum a = true ∧ a.key? = some x

/-- A product that is representable is exact. -/
theorem HasKey.mul {a b : Binary64} {x y : Int} (ha : HasKey a x) (hb : HasKey b y) (h : representable (x * y)) :
    ∃ r, HasKey (a.mul b) r ∧ r * 2 ^ 1074 = x * y := by
  obtain ⟨c, k, hc, hk, hkxy⟩ := h
  obtain ⟨r, hr, hnear, -⟩ := mul_nearest ha.1 hb.1 ha.2 hb.2 hk
  have hexact : r * 2 ^ 1074 = x * y := by
    rw [hkxy, sub_self, abs_zero] at hnear
    exact sub_eq_zero.1 (abs_nonpos_iff.1 hnear)
  have hrk : r = k := mul_right_cancel₀ (pow_ne_zero 1074 two_ne_zero) (hexact.trans hkxy.symm)
  exact ⟨r, ⟨isFiniteNum_of_key?_eq hc hk (hrk ▸ hr), hr⟩, hexact⟩

/-- A sum that is representable is exact. -/
theorem HasKey.add {a b : Binary64} {x y p q : Int} (ha : HasKey a x) (hb : HasKey b y) (hx : x * 2 ^ 1074 = p)
    (hy : y * 2 ^ 1074 = q) (h : representable (p + q)) :
    ∃ r, HasKey (a.add b) r ∧ r * 2 ^ 1074 = p + q := by
  obtain ⟨c, k, hc, hk, hkxy⟩ := h
  obtain ⟨r, hr, hnear, -⟩ := add_nearest ha.1 hb.1 ha.2 hb.2 hk
  have hsum : k = x + y := by
    apply mul_right_cancel₀ (pow_ne_zero 1074 (two_ne_zero (α := Int)))
    rw [hkxy, add_mul, hx, hy]
  have hexact : r = x + y := by
    rw [hsum, sub_self, abs_zero] at hnear
    exact sub_eq_zero.1 (abs_nonpos_iff.1 hnear)
  refine ⟨r, ⟨isFiniteNum_of_key?_eq hc hk ?_, hr⟩, by rw [hexact, add_mul, hx, hy]⟩
  rw [hr, hexact, hsum]

theorem matMul_getElem (A B : Mtx) (i j : Fin 4) : (matMul A B)[i][j] =
    (((A[i][0].mul B[0][j]).add (A[i][1].mul B[1][j])).add (A[i][2].mul B[2][j])).add (A[i][3].mul B[3][j]) := by
  simp [matMul]

/-- Settles O60: the definition's sum, and one exact operation after another. -/
theorem matrixProductFollowsRowsAndColumns : Obligations.MatrixProductFollowsRowsAndColumns := by
  intro A B i j
  refine ⟨matMul_getElem A B i j, fun a b ha hb hprod h2 h3 h4 => ?_⟩
  obtain ⟨r0, hr0, e0⟩ := HasKey.mul (ha 0) (hb 0) (hprod 0)
  obtain ⟨r1, hr1, e1⟩ := HasKey.mul (ha 1) (hb 1) (hprod 1)
  obtain ⟨r2, hr2, e2⟩ := HasKey.mul (ha 2) (hb 2) (hprod 2)
  obtain ⟨r3, hr3, e3⟩ := HasKey.mul (ha 3) (hb 3) (hprod 3)
  obtain ⟨s1, hs1, f1⟩ := hr0.add hr1 e0 e1 h2
  obtain ⟨s2, hs2, f2⟩ := hs1.add hr2 f1 e2 h3
  obtain ⟨s3, hs3, f3⟩ := hs2.add hr3 f2 e3 h4
  rw [matMul_getElem]
  exact ⟨s3, hs3.2, f3⟩

/-! ### The identity -/

theorem key?_one : Binary64.one.key? = some (2 ^ 1074) := farZ_key?

theorem HasKey.representable {a : Binary64} {x : Int} (ha : HasKey a x) : representable (2 ^ 1074 * x) :=
  ⟨a, x, ha.1, ha.2, mul_comm _ _⟩

theorem representable_zero : representable 0 := ⟨.zero, 0, rfl, key?_zero, zero_mul _⟩

theorem exists_hasKey {a : Binary64} (h : isFiniteNum a = true) : ∃ x, HasKey a x := by
  obtain ⟨s, e, f, rfl⟩ := exists_finite_of_isFiniteNum h
  exact ⟨_, rfl, rfl⟩

/-- The place of an element of the identity. -/
def identityKey (r c : Fin 4) : Int := if r = c then 2 ^ 1074 else 0

theorem identityMtx_hasKey (r c : Fin 4) : HasKey identityMtx[r][c] (identityKey r c) := by
  have h : identityMtx[r][c] = if r = c then .one else .zero := by
    fin_cases r <;> fin_cases c <;> rfl
  rw [h, identityKey]
  split
  · exact ⟨rfl, key?_one⟩
  · exact ⟨rfl, key?_zero⟩

/-- Where one product of the four is `2^1074 * x` and the others are zero, the element stands at `x`. -/
theorem matMul_key?_of_single {A B : Mtx} {i j : Fin 4} {a b : Fin 4 → Int} (ha : ∀ k : Fin 4, HasKey A[i][k] (a k))
    (hb : ∀ k : Fin 4, HasKey B[k][j] (b k)) (l : Fin 4) {v : Binary64} {x : Int} (hv : HasKey v x)
    (hsingle : ∀ k, a k * b k = if k = l then 2 ^ 1074 * x else 0) : (matMul A B)[i][j].key? = some x := by
  have hx := hv.representable
  have h0 := representable_zero
  have hproducts : ∀ k, representable (a k * b k) := fun k => by
    rw [hsingle]
    split
    · exact hx
    · exact h0
  have hsums : representable (a 0 * b 0 + a 1 * b 1) ∧ representable (a 0 * b 0 + a 1 * b 1 + a 2 * b 2) ∧
      a 0 * b 0 + a 1 * b 1 + a 2 * b 2 + a 3 * b 3 = 2 ^ 1074 * x := by
    simp only [hsingle]
    generalize (2 : Int) ^ 1074 * x = p at hx ⊢
    fin_cases l <;> simp [hx, h0]
  obtain ⟨h2, h3, hsum⟩ := hsums
  obtain ⟨r, hr, hrx⟩ :=
    (matrixProductFollowsRowsAndColumns A B i j).2 a b ha hb hproducts h2 h3 (hsum ▸ hx)
  rw [hsum, mul_comm] at hrx
  rw [hr, mul_left_cancel₀ (pow_ne_zero 1074 two_ne_zero) hrx]

/-- Settles O40: a row or a column of the identity leaves one product, which is exact, and three zeros. -/
theorem identityMultiplyExact : Obligations.IdentityMultiplyExact := by
  intro M hM r c
  choose m hm using fun r c => exists_hasKey (hM r c)
  rw [(hm r c).2]
  constructor
  · refine matMul_key?_of_single (identityMtx_hasKey r) (hm · c) r (hm r c) fun k => ?_
    rcases eq_or_ne k r with rfl | hk
    · rw [identityKey, if_pos rfl, if_pos rfl]
    · rw [identityKey, if_neg hk.symm, if_neg hk, zero_mul]
  · refine matMul_key?_of_single (hm r) (identityMtx_hasKey · c) c (hm r c) fun k => ?_
    rcases eq_or_ne k c with rfl | hk
    · rw [identityKey, if_pos rfl, if_pos rfl, mul_comm]
    · rw [identityKey, if_neg hk, if_neg hk, mul_zero]

/-! ### The elements memory holds -/

/-- A 16.16 number is exact. -/
theorem ofFixed_key? {i : Int} (hi : i.natAbs < 2 ^ 53) : (Binary64.ofFixed i).key? = some (i * 2 ^ 1058) := by
  obtain ⟨e, f, hround, hmag⟩ := round_exact (decide (i < 0)) hi (k := 1058) (sh := 0) (by decide) rfl
  rw [Binary64.ofFixed, ofDyadic_eq_round, hround, key?, hmag, signed_natAbs_mul, Nat.cast_pow, Nat.cast_ofNat]

theorem word_natAbs_le (v : BitVec 32) : v.toInt.natAbs ≤ 2 ^ 31 := by
  have hlow := v.le_toInt
  have hhigh := v.toInt_lt
  omega

/-- Settles O35: the two halves are one signed 32-bit integer, far below `2^53`. -/
theorem fixedPointElementExact : Obligations.FixedPointElementExact := by
  intro hi lo
  have hsplit : (hi ++ lo).toInt = hi.toInt * 65536 + lo.toNat := by
    rw [BitVec.toInt_append, if_neg (by decide), mul_comm]
    rfl
  rw [ofFixed_key? ((word_natAbs_le (hi ++ lo)).trans_lt (by decide)), hsplit]

/-! ### Bounds -/

/-- A finite number that stands within `2^p`. -/
def Within (p : Nat) (a : Binary64) : Prop := ∃ x, HasKey a x ∧ |x| ≤ 2 ^ p

theorem Within.of_key? {a : Binary64} {x : Int} {p : Nat} (hp : p < infExponent) (hx : a.key? = some x)
    (hle : |x| ≤ 2 ^ p) : Within p a := by
  refine ⟨x, ⟨isFiniteNum_of_key?_lt hx (hle.trans_lt ?_), hx⟩, hle⟩
  rw [infPlace]
  exact_mod_cast Nat.pow_lt_pow_right Nat.one_lt_two hp

theorem Within.mono {a : Binary64} {p q : Nat} (ha : Within p a) (h : p ≤ q) : Within q a := by
  obtain ⟨x, hx, hle⟩ := ha
  exact ⟨x, hx, hle.trans (pow_le_pow_right₀ one_le_two h)⟩

/-- Below the infinity's place a power of two is a number, and so is its opposite. -/
theorem exists_key?_two_pow {p : Nat} (hp : p < infExponent) :
    ∃ c d : Binary64, c.key? = some (2 ^ p) ∧ d.key? = some (-2 ^ p) := by
  have h (neg : Bool) : (ofMagnitude neg (2 ^ p)).key? = some (signed neg (2 ^ p : Nat)) := by
    rw [ofMagnitude_key?_eq neg (fitsPlace_two_pow p), infPlace,
      min_eq_left (Nat.pow_le_pow_right Nat.two_pos hp.le)]
  exact ⟨_, _, by rw [h false, signed, if_neg (by decide), Nat.cast_pow, Nat.cast_two],
    by rw [h true, signed, if_pos rfl, Nat.cast_pow, Nat.cast_two]⟩

theorem abs_mul_two_pow (x : Int) (n : Nat) : |x * 2 ^ n| = |x| * 2 ^ n := by
  rw [abs_mul, abs_pow, abs_two]

/-- What is no farther from a value within a bound than the bound's two ends is within the bound. -/
theorem abs_le_of_nearest {r v b : Int} (hv : |v| ≤ b) (hhigh : |r - v| ≤ |b - v|) (hlow : |r - v| ≤ |-b - v|) :
    |r| ≤ b := by
  simp only [Int.abs_eq_natAbs] at *
  omega

theorem Within.add {a b : Binary64} {p : Nat} (ha : Within p a) (hb : Within p b) (hp : p + 1 < infExponent) :
    Within (p + 1) (a.add b) := by
  obtain ⟨x, hx, hxle⟩ := ha
  obtain ⟨y, hy, hyle⟩ := hb
  obtain ⟨c, d, hc, hd⟩ := exists_key?_two_pow hp
  obtain ⟨r, hr, hhigh, -⟩ := add_nearest hx.1 hy.1 hx.2 hy.2 hc
  obtain ⟨r', hr', hlow, -⟩ := add_nearest hx.1 hy.1 hx.2 hy.2 hd
  obtain rfl : r = r' := Option.some.inj (hr.symm.trans hr')
  have hexact : |x + y| ≤ 2 ^ (p + 1) :=
    calc |x + y| ≤ |x| + |y| := abs_add_le x y
      _ ≤ 2 ^ p + 2 ^ p := add_le_add hxle hyle
      _ = 2 ^ (p + 1) := by rw [pow_succ, mul_two]
  exact .of_key? hp hr (abs_le_of_nearest hexact hhigh hlow)

theorem Within.mul {a b : Binary64} {p q n : Nat} (ha : Within p a) (hb : Within q b) (hn : p + q = n + 1074)
    (hp : n < infExponent) : Within n (a.mul b) := by
  obtain ⟨x, hx, hxle⟩ := ha
  obtain ⟨y, hy, hyle⟩ := hb
  obtain ⟨c, d, hc, hd⟩ := exists_key?_two_pow hp
  obtain ⟨r, hr, hhigh, -⟩ := mul_nearest hx.1 hy.1 hx.2 hy.2 hc
  obtain ⟨r', hr', hlow, -⟩ := mul_nearest hx.1 hy.1 hx.2 hy.2 hd
  obtain rfl : r = r' := Option.some.inj (hr.symm.trans hr')
  have hexact : |x * y| ≤ 2 ^ n * 2 ^ 1074 :=
    calc |x * y| = |x| * |y| := abs_mul x y
      _ ≤ 2 ^ p * 2 ^ q := mul_le_mul hxle hyle (abs_nonneg y) (by positivity)
      _ = 2 ^ n * 2 ^ 1074 := by rw [← pow_add, hn, pow_add]
  have hbound := abs_le_of_nearest hexact hhigh (by rwa [← neg_mul])
  rw [abs_mul_two_pow] at hbound
  exact .of_key? hp hr (le_of_mul_le_mul_right hbound (pow_pos two_pos 1074))

/-- Three additions of four products. -/
theorem matMul_within {A B : Mtx} {p q n : Nat} (hA : ∀ r c : Fin 4, Within p A[r][c])
    (hB : ∀ r c : Fin 4, Within q B[r][c]) (hn : p + q = n + 1074) (hp : n + 3 < infExponent) (i j : Fin 4) :
    Within (n + 3) (matMul A B)[i][j] := by
  have hprod (k : Fin 4) : Within n (A[i][k].mul B[k][j]) := (hA i k).mul (hB k j) hn (by omega)
  have h1 := (hprod 0).add (hprod 1) (by omega)
  have h2 := h1.add ((hprod 2).mono (Nat.le_succ n)) (by omega)
  rw [matMul_getElem]
  exact h2.add ((hprod 3).mono (by omega)) hp

theorem ofFixed_within (v : BitVec 32) : Within 1089 (Binary64.ofFixed v.toInt) := by
  have hle := word_natAbs_le v
  refine .of_key? (by simp [infExponent]) (ofFixed_key? (hle.trans_lt (by decide))) ?_
  rw [abs_mul_two_pow, Int.abs_eq_natAbs, show 1089 = 31 + 1058 from rfl, pow_add]
  exact mul_le_mul_of_nonneg_right (by exact_mod_cast hle) (pow_pos two_pos 1058).le

theorem screenMatrix_within {w h : Nat} (hw : w < 2 ^ 52) (hh : h < 2 ^ 52) (r c : Fin 4) :
    Within 1125 (screenMatrix w h)[r][c] := by
  refine .of_key? (by simp [infExponent]) (screenMatrixExact w h r c hw hh) ?_
  rw [abs_mul_two_pow, show 1125 = 52 + 1073 from rfl, pow_add]
  refine mul_le_mul_of_nonneg_right ?_ (pow_pos two_pos 1073).le
  fin_cases r <;> fin_cases c <;> simp <;> omega

/-- Settles O41: the bounds of the elements, carried through the two products, stay far below 2^1024. -/
theorem noOverflowAfterLoads : Obligations.NoOverflowAfterLoads := by
  intro m p w h r c hw hh
  have hload (v : Fin 16 → BitVec 32) (r c : Fin 4) :
      Within 1089 (Mtx.ofElements fun k => Binary64.ofFixed (v k).toInt)[r][c] := by
    rw [ofElements_getElem]
    exact ofFixed_within _
  have hMP := matMul_within (n := 1104) (hload m) (hload p) rfl (by simp [infExponent])
  obtain ⟨x, hx, -⟩ :=
    matMul_within (n := 1158) hMP (screenMatrix_within hw hh) rfl (by simp [infExponent]) r c
  exact hx.1

end Sys2Proof.Machine
end

section
/-! PROOFS. The matrix commands: what each answers, its errors, its frame, and the final matrix after it
(41_matrix.md R124 to R130). -/

namespace Sys2Proof.Machine

/-! ### The pseudocode, case by case -/

/-- R120: memory holds one matrix at an address, the one that `LoadMtx` reads. -/
theorem holdsMtx_iff {s : State} {a : Nat} {M : Mtx} : holdsMtx s a M ↔ s.mtxAt a = M := by
  constructor
  · intro h
    refine Vector.ext fun r hr => Vector.ext fun c hc => ?_
    rw [show M[r][c] = _ from h ⟨r, hr⟩ ⟨c, hc⟩]
    exact ofElements_getElem _ ⟨r, hr⟩ ⟨c, hc⟩
  · rintro rfl
    exact fun r c => ofElements_getElem _ r c

section
variable {s : State} {load push : Bool} {addr : Word}

theorem loadMtx_past (h : s.input.memSize < s.resolve addr + 64) :
    s.loadMtx (s.resolve addr) = .error .outOfRange := if_neg (Nat.not_le_of_lt h)

theorem pushedMsp_of_val_eq {m : Fin 16} (hm : m.val = s.msp.val + push.toNat) : s.pushedMsp push = .ok m := by
  cases h : s.pushedMsp push with
  | ok m' => rw [Fin.ext ((pushedMsp_eq_ok h).trans hm.symm)]
  | error kind =>
    obtain ⟨rfl, h15, -⟩ := pushedMsp_eq_error h
    have := m.isLt
    rw [Bool.toNat_true] at hm
    omega

theorem pushedMsp_full (hm : s.msp.val = 15) : s.pushedMsp true = .error .stackOverflow := by
  rw [State.pushedMsp, if_pos rfl, dif_neg (by omega)]

/-- R124 with the matrix in the image. -/
theorem mtxProjection_inImage (hin : s.resolve addr + 64 ≤ s.input.memSize) :
    s.mtxProjection load addr =
      (combine load (s.mtxAt (s.resolve addr)) s.projMtx).map fun P => { s with projMtx := .written P } := by
  have hload : s.loadMtx (s.resolve addr) = .ok (s.mtxAt (s.resolve addr)) := if_pos hin
  rw [State.mtxProjection, hload]
  rfl

/-- R125 with room for the push and the matrix in the image. -/
theorem mtxModelview_inImage {m : Fin 16} (hm : m.val = s.msp.val + push.toNat)
    (hin : s.resolve addr + 64 ≤ s.input.memSize) :
    s.mtxModelview push load addr =
      (combine load (s.mtxAt (s.resolve addr)) s.ms[m]).map fun T =>
        { s with msp := m, ms := s.ms.set m (.written T) } := by
  have hload : s.loadMtx (s.resolve addr) = .ok (s.mtxAt (s.resolve addr)) := if_pos hin
  rw [State.mtxModelview, pushedMsp_of_val_eq hm, hload]
  rfl

theorem popMsp_succ {m : Fin 16} (hm : s.msp.val = m.val + 1) : s.popMsp = .ok { s with msp := m } := by
  cases h : s.popMsp with
  | ok t =>
    obtain ⟨m', hm', rfl⟩ := popMsp_eq_ok h
    rw [show m' = m from Fin.ext (by omega)]
  | error kind =>
    have := (popMsp_eq_error h).1
    omega

end

/-! ### Completions -/

/-- Settles O42: the matrix is read, combined with the projection, and the final matrix recomputed. -/
theorem projectionMatrixOp : Obligations.ProjectionMatrixOp := by
  intro s push addr M hin hM
  rw [holdsMtx_iff] at hM
  refine ⟨?_, fun P hP => ?_⟩
  · rw [exec_mtx, if_pos rfl, mtxProjection_inImage hin, hM]
    rfl
  · rw [exec_mtx, if_pos rfl, mtxProjection_inImage hin, hM, hP]
    rfl

/-- R123 at a top just written. -/
theorem recomputeFinal_set (s : State) (m : Fin 16) (T : Mtx) :
    State.recomputeFinal { s with msp := m, ms := s.ms.set m (.written T) } =
      { s with
        msp := m
        ms := s.ms.set m (.written T)
        finalMtx := finalOf (.written T) s.projMtx s.screenMtx } := by
  have htop : State.top { s with msp := m, ms := s.ms.set m (.written T) } = .written T :=
    Vector.getElem_set_self _
  rw [State.recomputeFinal, htop]

/-- Settles O43: the matrix is read, combined with the slot worked at, and the final matrix recomputed. -/
theorem modelviewMatrixOp : Obligations.ModelviewMatrixOp := by
  intro s push addr M m hin hM hm
  rw [holdsMtx_iff] at hM
  refine ⟨?_, fun T hT => ?_⟩
  · rw [exec_mtx, if_neg (by decide), mtxModelview_inImage hm hin, hM, ← recomputeFinal_set]
    rfl
  · rw [exec_mtx, if_neg (by decide), mtxModelview_inImage hm hin, hM, hT, ← recomputeFinal_set]
    rfl

/-- Settles O45: the index goes down where it can, and nothing else moves but the final matrix. -/
theorem popMatrix : Obligations.PopMatrix := by
  refine fun s => ⟨fun m hm => ?_, fun h0 => ?_⟩
  · rw [exec_popmtx, popMsp_succ hm]
    rfl
  · have herr : s.popMsp = .error .stackUnderflow := if_pos h0
    apply raises_of_effect (i := .popmtx)
    rw [effect, herr]
    rfl

/-- Settles O44: the checks in R126's order, each reached when those before it pass. -/
theorem matrixOpErrors : Obligations.MatrixOpErrors := by
  intro s push load proj addr
  have raised {kind : ErrorKind}
      (h : (if proj then s.mtxProjection load addr else s.mtxModelview push load addr) = .error kind) :
      raises (.mtx push load proj addr) s kind 0x01 := by
    apply raises_of_effect (i := .mtx push load proj addr)
    rw [effect, h]
    rfl
  refine ⟨?_, ?_, ?_, ?_⟩
  · rintro rfl rfl h15
    apply raised
    rw [if_neg (by decide), State.mtxModelview, pushedMsp_full h15]
    rfl
  · intro hroom hpast
    apply raised
    cases proj with
    | true =>
      rw [if_pos rfl, State.mtxProjection, loadMtx_past hpast]
      rfl
    | false =>
      have hm : s.msp.val + push.toNat < 16 := hroom.resolve_left (by decide)
      rw [if_neg (by decide), State.mtxModelview, pushedMsp_of_val_eq (m := ⟨_, hm⟩) rfl, loadMtx_past hpast]
      rfl
  · rintro rfl rfl hin hP
    apply raised
    rw [if_pos rfl, mtxProjection_inImage hin, hP]
    rfl
  · rintro m hm rfl rfl hin hT
    apply raised
    rw [if_neg (by decide), mtxModelview_inImage hm hin, hT]
    rfl

/-! ### After a matrix command -/

section
variable {s t : State} {push load : Bool} {addr : Word}

theorem projectionOp_live (h : exec (.mtx push load true addr) s = .next t) (live : t.live) :
    ∃ P, t = State.recomputeFinal { s with projMtx := .written P } := by
  rw [exec_mtx] at h
  obtain ⟨v, hv, rfl⟩ := map_ok (finish_live h live)
  obtain ⟨P, -, -, rfl⟩ := mtxProjection_eq_ok hv
  exact ⟨P, rfl⟩

theorem modelviewOp_live (h : exec (.mtx push load false addr) s = .next t) (live : t.live) :
    ∃ (m : Fin 16) (T : Mtx), m.val = s.msp.val + push.toNat ∧
      t = State.recomputeFinal { s with msp := m, ms := s.ms.set m (.written T) } := by
  rw [exec_mtx] at h
  obtain ⟨v, hv, rfl⟩ := map_ok (finish_live h live)
  obtain ⟨m, T, hm, -, -, rfl⟩ := mtxModelview_eq_ok hv
  exact ⟨m, T, hm, rfl⟩

theorem popmtx_live (h : exec .popmtx s = .next t) (live : t.live) :
    ∃ m : Fin 16, t = State.recomputeFinal { s with msp := m } := by
  rw [exec_popmtx] at h
  obtain ⟨v, hv, rfl⟩ := map_ok (finish_live h live)
  obtain ⟨m, -, rfl⟩ := popMsp_eq_ok hv
  exact ⟨m, rfl⟩

/-- A matrix command that completes wrote matrices alone, and then recomputed the final matrix. -/
theorem matrixCommand_live {i : Instr} (hi : (∃ push load proj addr, i = .mtx push load proj addr) ∨ i = .popmtx)
    (h : exec i s = .next t) (live : t.live) :
    ∃ ms msp P, t = State.recomputeFinal { s with ms := ms, msp := msp, projMtx := P } := by
  rcases hi with ⟨push, load, proj, addr, rfl⟩ | rfl
  · cases proj with
    | true =>
      obtain ⟨P, rfl⟩ := projectionOp_live h live
      exact ⟨s.ms, s.msp, .written P, rfl⟩
    | false =>
      obtain ⟨m, T, -, rfl⟩ := modelviewOp_live h live
      exact ⟨s.ms.set m (.written T), m, s.projMtx, rfl⟩
  · obtain ⟨m, rfl⟩ := popmtx_live h live
    exact ⟨s.ms, m, s.projMtx, rfl⟩

end

theorem getElem_set_of_ne (ms : Vector (Slot Mtx) 16) (v : Slot Mtx) {m k : Fin 16} (h : k ≠ m) :
    (ms.set m v)[k] = ms[k] :=
  Vector.getElem_set_ne m.isLt k.isLt fun hmk => h (Fin.ext hmk.symm)

/-- Settles O46: each form writes its own matrices, and no matrix command anything else. -/
theorem matrixCommandsFrame : Obligations.MatrixCommandsFrame := by
  intro s t i h live
  refine ⟨?_, ?_, ?_, fun hi => ?_⟩
  · rintro push load addr rfl
    obtain ⟨P, rfl⟩ := projectionOp_live h live
    exact ⟨rfl, rfl⟩
  · rintro push load addr rfl
    obtain ⟨m, T, -, rfl⟩ := modelviewOp_live h live
    exact ⟨rfl, fun k hk => getElem_set_of_ne s.ms _ hk⟩
  · rintro rfl
    obtain ⟨m, rfl⟩ := popmtx_live h live
    exact ⟨rfl, rfl⟩
  · obtain ⟨ms, msp, P, rfl⟩ := matrixCommand_live hi h live
    exact ⟨⟨rfl, rfl, rfl, rfl, rfl⟩, ⟨rfl, rfl, rfl, rfl⟩, rfl, rfl, rfl, rfl, fun _ => rfl⟩

theorem finalOf_unwritten {M P : Slot Mtx} (S : Mtx) (h : M = .unwritten ∨ P = .unwritten) :
    finalOf M P S = .unwritten := by
  rcases h with rfl | rfl
  · rfl
  · cases M <;> rfl

/-- Settles O47: whatever a matrix command wrote, it recomputed the final matrix last. -/
theorem finalMatrixNeverStale : Obligations.FinalMatrixNeverStale := by
  intro s t i hi h live
  have hfresh : t.finalMtx = finalOf t.ms[t.msp] t.projMtx t.screenMtx := by
    obtain ⟨ms, msp, P, rfl⟩ := matrixCommand_live hi h live
    rfl
  rw [hfresh]
  refine ⟨fun M P hM hP => ?_, finalOf_unwritten _⟩
  rw [hM, hP]
  rfl

/-- Settles O48: the push wrote only the slot above the old top, and the pop goes back to that top. -/
theorem pushThenPopRestores : Obligations.PushThenPopRestores := by
  intro s t load addr h live
  obtain ⟨m, T, hm, rfl⟩ := modelviewOp_live h live
  rw [Bool.toNat_true] at hm
  have hbelow (k : Fin 16) (hk : k ≤ s.msp) : (s.ms.set m (.written T))[k] = s.ms[k] :=
    getElem_set_of_ne s.ms _ (by omega)
  refine ⟨_, (popMatrix _).1 s.msp hm, rfl, rfl, hbelow, fun hfresh => ?_⟩
  exact (congrArg (finalOf · s.projMtx s.screenMtx) (hbelow s.msp le_rfl)).trans hfresh.symm

end Sys2Proof.Machine
end

section
/-! PROOFS. Branch/call and return: what each answers, what they leave alone, nested calls, and the end of every parse
(42_control.md). -/

namespace Sys2Proof.Machine

/-! ### What each command answers -/

/-- R140's push with `d` return addresses held, `d` below 16. -/
theorem pushReturn_room {s : State} {d : Fin 16} (hd : s.jsp.val = d.val) :
    s.pushReturn = .ok { s with js := s.js.set d s.pc, jsp := ⟨d.val + 1, by omega⟩ } := by
  have room : s.jsp.val < 16 := by omega
  rw [State.pushReturn, dif_pos room]
  simp only [hd]

theorem pushReturn_full {s : State} (hd : s.jsp.val = 16) : s.pushReturn = .error .stackOverflow :=
  dif_neg (by omega)

/-- Settles O49: the push has room or overflows, and then control goes to the target. -/
theorem branchCall : Obligations.BranchCall := by
  refine fun s addr => ⟨fun d hd => ?_, fun hfull => ?_, rfl⟩
  · rw [exec_dl, pushReturn_room hd]
    rfl
  · apply raises_of_effect (i := .dl addr)
    rw [effect, pushReturn_full hfull]
    rfl

/-- Settles O50: a return pops, or finds the jump stack empty. -/
theorem returnPopsOrEnds : Obligations.ReturnPopsOrEnds := by
  refine fun s => ⟨fun d hd => ?_, fun hempty => ?_⟩
  · rw [exec_enddl, popReturn_held hd]
    rfl
  · rw [exec_enddl, popReturn_empty hempty]

/-! ### The frame -/

/-- R140, R142: branch/call and return write no vertex register, output, matrix or segment. -/
theorem Writes.control_keeps {s u : State} (h : Writes s false u) :
    s.sameGeometry u ∧ s.sameMatrices u ∧ s.sameSegments u := by
  cases h <;> exact ⟨⟨rfl, rfl, rfl, rfl, rfl⟩, ⟨rfl, rfl, rfl, rfl⟩, rfl⟩

/-- R36: a command writes no jump-stack slot but the first dead one. -/
theorem Writes.js_other {s u : State} {b : Bool} (h : Writes s b u) {k : Nat} (hk : k < 16) (hne : k ≠ s.jsp.val) :
    u.js[k] = s.js[k] := by
  cases h with
  | call a room => exact Vector.getElem_set_ne room hk hne.symm
  | _ => rfl

/-- R142: the popped slot keeps its content. -/
theorem popReturn_js (s : State) : s.popReturn.js = s.js := by
  unfold State.popReturn
  split <;> rfl

/-- Settles O51: what the three commands may write, and what a return and a tail branch answer. -/
theorem controlFrame : Obligations.ControlFrame := by
  intro s t i hi h live
  have hwrites : Writes s false t := by
    rw [exec_eq_finish] at h
    exact hi ▸ effect_writes (finish_live h live)
  obtain ⟨hgeometry, hmatrices, hsegments⟩ := hwrites.control_keeps
  refine ⟨hgeometry, hmatrices, hsegments, hwrites.sameParse, fun k hk => hwrites.js_other k.isLt hk, ?_, ?_⟩
  · rintro rfl
    rw [exec_enddl] at h
    cases h
    exact popReturn_js s
  · rintro addr rfl
    rw [exec_dlNopush] at h
    cases h
    exact ⟨rfl, rfl⟩

/-! ### Nested calls -/

theorem runCommands_cons {i : Instr} {s t : State} (h : exec i s.advance = .next t) (rest : List Instr) :
    runCommands (i :: rest) s = runCommands rest t := by
  rw [runCommands, h]

theorem runCommands_append {before : List Instr} {s t : State} (h : runCommands before s = .next t)
    (after : List Instr) : runCommands (before ++ after) s = runCommands after t := by
  induction before generalizing s with
  | nil => cases h; rfl
  | cons i rest ih =>
    obtain ⟨u, hu⟩ := exec_answers i s.advance
    rw [runCommands_cons hu] at h
    rw [List.cons_append, runCommands_cons hu, ih h]

/-- `t` holds the return addresses of `s` and `n` more above them, with the status of `s`. -/
structure State.NestedBy (n : Nat) (s t : State) : Prop where
  depth : t.jsp.val = s.jsp.val + n
  status : t.status = s.status
  held : ∀ (k : Nat) (h : k < s.jsp.val), t.js[k]'(by omega) = s.js[k]'(by omega)

theorem State.NestedBy.trans {m n : Nat} {s t u : State} (h : s.NestedBy m t) (h' : t.NestedBy n u) :
    s.NestedBy (m + n) u where
  depth := by rw [h'.depth, h.depth, Nat.add_assoc]
  status := h'.status.trans h.status
  held k hk := (h'.held k (by have := h.depth; omega)).trans (h.held k hk)

/-- R140: a call nests by one, and holds the address right after it on top. -/
theorem exec_dl_nested {s : State} (room : s.jsp.val < 16) (addr : Word) :
    ∃ t, exec (.dl addr) s.advance = .next t ∧ s.NestedBy 1 t ∧ t.js[s.jsp.val] = s.pc + 8 := by
  obtain ⟨hcall, -, -⟩ := branchCall s.advance addr
  refine ⟨_, hcall ⟨s.jsp.val, room⟩ rfl, ⟨rfl, rfl, fun k hk => ?_⟩, Vector.getElem_set_self room⟩
  exact Vector.getElem_set_ne room _ (by omega)

/-- R140: a tail branch does not nest. -/
theorem exec_dlNopush_nested (s : State) (addr : Word) :
    ∃ t, exec (.dlNopush addr) s.advance = .next t ∧ s.NestedBy 0 t :=
  ⟨_, rfl, rfl, rfl, fun _ _ => rfl⟩

/-- A branch/call by its flag, as a path of O52 lists it: a call, or else a tail branch. -/
def branchCommand (p : Bool × Word) : Instr := if p.1 then .dl p.2 else .dlNopush p.2

/-- R141: a path of calls and tail branches that fits the jump stack nests by the number of its calls. -/
theorem runCommands_path_nested (path : List (Bool × Word)) {s : State}
    (fits : s.jsp.val + path.countP Prod.fst ≤ 16) :
    ∃ t, runCommands (path.map branchCommand) s = .next t ∧ s.NestedBy (path.countP Prod.fst) t := by
  induction path generalizing s with
  | nil => exact ⟨s, rfl, rfl, rfl, fun _ _ => rfl⟩
  | cons p rest ih =>
    obtain ⟨isCall, addr⟩ := p
    cases isCall with
    | true =>
      rw [List.countP_cons_of_pos rfl] at fits ⊢
      obtain ⟨u, hexec, hcall, -⟩ := exec_dl_nested (s := s) (by omega) addr
      obtain ⟨t, hrun, hrest⟩ := ih (s := u) (by have := hcall.depth; omega)
      exact ⟨t, (runCommands_cons hexec _).trans hrun, Nat.add_comm 1 _ ▸ hcall.trans hrest⟩
    | false =>
      rw [List.countP_cons_of_neg Bool.false_ne_true] at fits ⊢
      obtain ⟨u, hexec, hbranch⟩ := exec_dlNopush_nested s addr
      obtain ⟨t, hrun, hrest⟩ := ih (s := u) (by have := hbranch.depth; omega)
      exact ⟨t, (runCommands_cons hexec _).trans hrun, Nat.zero_add (rest.countP Prod.fst) ▸ hbranch.trans hrest⟩

/-- R142: a return with a return address held goes on from there, one less nested. -/
theorem runCommands_enddl {s : State} {d : Nat} (hd : s.jsp.val = d + 1) (rest : List Instr) :
    runCommands (.enddl :: rest) s =
      runCommands rest { s.advance with jsp := ⟨d, by omega⟩, pc := s.js[d]'(by omega) } :=
  runCommands_cons ((returnPopsOrEnds s.advance).1 ⟨d, by omega⟩ hd) rest

/-- R142: `n + 1` returns lead to the lowest of the `n + 1` return addresses they pop. -/
theorem runCommands_returns (n : Nat) {s : State} {d : Nat} (hd : s.jsp.val = d + n + 1) :
    ∃ t, runCommands (List.replicate (n + 1) .enddl) s = .next t ∧
      t.pc = s.js[d] ∧ t.jsp.val = d ∧ t.status = s.status := by
  induction n generalizing s with
  | zero => exact ⟨_, runCommands_enddl hd [], rfl, rfl, rfl⟩
  | succ n ih =>
    rw [List.replicate_succ, runCommands_enddl hd]
    exact ih rfl

/-- Settles O52: the path nests by its calls above the outermost one, and the last return pops what that one
pushed. -/
theorem nestedCallsReturnToCaller : Obligations.NestedCallsReturnToCaller := by
  intro s first path fits
  obtain ⟨u, hfirst, hcall, htop⟩ := exec_dl_nested (s := s) (by omega) first
  obtain ⟨v, hpath, hnested⟩ := runCommands_path_nested path (s := u)
    (by rw [hcall.depth, Nat.add_assoc]; exact fits)
  obtain ⟨t, hreturns, hpc, hjsp, hstatus⟩ := runCommands_returns (path.countP Prod.fst) (s := v) (d := s.jsp.val)
    (by rw [hnested.depth, hcall.depth]; omega)
  refine ⟨t, ?_, ?_, Fin.ext hjsp, ?_⟩
  · rw [Nat.add_comm 1, ← hreturns]
    exact runCommands_append ((runCommands_cons hfirst _).trans hpath) _
  · rw [hpc, hnested.held s.jsp.val (by have := hcall.depth; omega), htop]
  · rw [hstatus, hnested.status, hcall.status]

/-! ### The end of every parse -/

/-- A first step, and then more. -/
theorem core_run_succ {s t : State} (h : step s = .next t) (k : Nat) : core.run (k + 1) s = core.run k t := by
  have hcore : core.step s = .next t := h
  simp only [Host.Core.run, hcore]

/-- R30, R166: a step after which the parse still runs used one command of the budget. -/
theorem step_running_budget {s t : State} (h : step s = .next t) (hrun : t.status = .running) :
    s.cmdCount ≠ s.input.maxSteps ∧ t.cmdCount = s.cmdCount + 1 ∧ t.input = s.input := by
  have live : t.live := by rw [State.live, hrun, Status.isFaulted_running]
  obtain ⟨-, hbudget, -, -⟩ := step_live_writes h live
  exact ⟨hbudget, completedCommandCounted s t h live, (step_keeps_configuration h).1⟩

/-- R143: a parse with `n` commands of its budget left ends after at most `n + 1` steps. -/
theorem run_ends {s : State} {n : Nat} (hvalid : s.input.valid = true) (hrun : s.status = .running)
    (hleft : s.cmdCount + n = s.input.maxSteps) :
    ∃ (k : Nat) (t : State), k ≤ n + 1 ∧ core.run k s = .next t ∧ t.status ≠ .running := by
  induction n generalizing s with
  | zero =>
    obtain ⟨t, hstep⟩ := runningStepAnswers s hvalid hrun
    exact ⟨1, t, le_rfl, core_run_succ hstep 0, fun hrun' => (step_running_budget hstep hrun').1 hleft⟩
  | succ n ih =>
    obtain ⟨t, hstep⟩ := runningStepAnswers s hvalid hrun
    by_cases hrun' : t.status = .running
    · obtain ⟨-, hcount, hinput⟩ := step_running_budget hstep hrun'
      obtain ⟨k, u, hk, hsteps, hend⟩ := ih (s := t) (hinput ▸ hvalid) hrun' (by rw [hcount, hinput]; omega)
      exact ⟨k + 1, u, Nat.succ_le_succ hk, (core_run_succ hstep k).trans hsteps, hend⟩
    · exact ⟨1, t, by omega, core_run_succ hstep 0, hrun'⟩

/-- Settles O14: each step of a running parse uses one command of the budget, or ends the parse. -/
theorem parseEndsWithinBudget : Obligations.ParseEndsWithinBudget := by
  intro s hvalid hrun hbudget
  exact run_ends hvalid hrun (Nat.add_sub_cancel' hbudget)

end Sys2Proof.Machine
end

section
/-! PROOFS. Set segment, the base it leaves in force, and the two no-ops (43_segment_and_other.md). -/

namespace Sys2Proof.Machine

/-! ### The written entry -/

/-- D11: the low 29 bits of the operand, by plain arithmetic. -/
theorem field_base_eq_ofNat (base : Word) : field base 0 29 = BitVec.ofNat 29 (base.toNat % 536870912) := by
  apply BitVec.eq_of_toNat_eq
  simp [field_toNat]

@[simp] theorem State.setSegment_segBase_same (s : State) (k : BitVec 4) (base : Word) :
    (s.setSegment k base).segBase k = field base 0 29 :=
  Vector.getElem_set_self k.isLt

theorem State.setSegment_segBase_other (s : State) {j k : BitVec 4} (h : j ≠ k) (base : Word) :
    (s.setSegment j base).segBase k = s.segBase k :=
  Vector.getElem_set_ne j.isLt k.isLt fun hjk => h (BitVec.eq_of_toNat_eq hjk)

/-- Settles O22: the write of one entry, by the entries that a look-up gives. -/
theorem setSegmentWritesMaskedBase : Obligations.SetSegmentWritesMaskedBase := by
  intro s seg base
  have htable : s.seg.set seg.toNat (field base 0 29) seg.isLt = Vector.ofFn fun k : Fin 16 =>
      if k.val = seg.toNat then BitVec.ofNat 29 (base.toNat % 536870912) else s.seg[k] := by
    ext1 k hk
    rw [Vector.getElem_set, Vector.getElem_ofFn, field_base_eq_ofNat]
    simp only [@eq_comm _ seg.toNat k, Fin.getElem_fin]
  rw [exec_mwSegment, State.setSegment, htable]

/-- Settles O24: a set segment is straight, and its one write is an entry of the table. -/
theorem setSegmentFrame : Obligations.SetSegmentFrame := by
  intro s t seg base h
  rw [exec_mwSegment] at h
  cases h
  have hwrites : Writes s true (s.setSegment seg base) := .segment seg base
  refine ⟨fun k hk => ?_, ⟨rfl, rfl, rfl, rfl, rfl⟩, ⟨rfl, rfl, rfl, rfl⟩, hwrites.sameControl, hwrites.sameParse⟩
  exact Vector.getElem_set_ne seg.isLt k.isLt hk.symm

/-! ### A base in force -/

/-- R150: a completed command other than set segment leaves the segment table, as the frames of the commands say. -/
theorem exec_sameSegments {i : Instr} {s u : State} (h : exec i s = .next u) (live : u.live)
    (other : ∀ k base, i ≠ .mwSegment k base) : s.sameSegments u := by
  cases i with
  | mtx push load proj addr =>
    obtain ⟨-, -, -, hframe⟩ := matrixCommandsFrame s u _ h live
    obtain ⟨-, -, hsegments, -⟩ := hframe (.inl ⟨push, load, proj, addr, rfl⟩)
    exact hsegments
  | popmtx =>
    obtain ⟨-, -, -, hframe⟩ := matrixCommandsFrame s u _ h live
    obtain ⟨-, -, hsegments, -⟩ := hframe (.inr rfl)
    exact hsegments
  | vtx nm1 v0 addr =>
    obtain ⟨-, -, -, -, -, -, -, hsegments, -⟩ := loadVerticesFrame s u nm1 v0 addr h live
    exact hsegments
  | tri1 ia ib ic =>
    obtain ⟨-, -, -, hsegments, -⟩ := triangleFrame s u ia ib ic h live
    exact hsegments
  | dl | dlNopush | enddl =>
    obtain ⟨-, -, hsegments, -⟩ := controlFrame s u _ rfl h live
    exact hsegments
  | mwSegment k base => exact absurd rfl (other k base)
  | noopMovewordOther | noopUnrecognized => cases h; rfl

/-- R151: a completed command that is no set segment of `k` leaves the base of `k`. -/
theorem exec_segBase {i : Instr} {s u : State} {k : BitVec 4} (h : exec i s = .next u) (live : u.live)
    (other : ∀ base, i ≠ .mwSegment k base) : u.segBase k = s.segBase k := by
  by_cases hset : ∃ j base, i = .mwSegment j base
  · obtain ⟨j, base, rfl⟩ := hset
    have hne : j ≠ k := fun hjk => other base (by rw [hjk])
    rw [exec_mwSegment] at h
    cases h
    exact s.setSegment_segBase_other hne base
  · have htable : u.seg = s.seg := exec_sameSegments h live fun j base hi => hset ⟨j, base, hi⟩
    simp only [State.segBase, htable]

/-- R151: so do steps none of which executes a set segment of `k`. Each but the last leaves a running parse, which
has not failed. -/
theorem StepsKeeping.segBase_eq {k : BitVec 4} {t u : State} (h : StepsKeeping k t u) (live : u.live) :
    u.segBase k = t.segBase k := by
  induction h with
  | refl => rfl
  | tail before last other ih =>
    obtain ⟨-, hrun, -, -, v, hexec, hlive, rfl⟩ := step_live last live
    have hbase := exec_segBase hexec hlive other
    exact hbase.trans (ih (by rw [State.live, hrun, Status.isFaulted_running]))

/-- Settles O23: the base written is kept along the steps, and is the one that the address selects. -/
theorem segmentBaseStaysInForce : Obligations.SegmentBaseStaysInForce := by
  intro s t u seg base a h steps live hseg
  rw [exec_mwSegment] at h
  cases h
  rw [u.resolve_eq, hseg, steps.segBase_eq live, State.setSegment_segBase_same]
  simp [field_toNat]

/-! ### The no-ops -/

/-- R155: an unrecognised command word is fetched as one of the two no-ops. -/
theorem exec_fetched_of_unrecognised {s : State}
    (h : field (s.u32At s.pc) 24 8 ∉ recognisedOpcodes ∨
      (field (s.u32At s.pc) 24 8 = 0xBC ∧ field (s.u32At s.pc) 0 8 ≠ 0x06)) (t : State) :
    exec s.fetched t = .next t := by
  obtain ⟨hopcode, hmoveword⟩ := unrecognisedDecodesAsNoop (s.u32At s.pc) (s.u32At (s.pc + 4))
  rcases h with op | ⟨op, sub⟩
  · rw [State.fetched, hopcode op]
    rfl
  · rw [State.fetched, hmoveword op sub]
    rfl

/-- Settles O25: the no-op answers the advanced state, which is retired with the count. -/
theorem noopOnlyAdvances : Obligations.NoopOnlyAdvances := by
  refine ⟨fun _ _ => rfl, fun _ _ => rfl, fun s hvalid hrun hbudget hfetch hword => ?_⟩
  have live : s.advance.live := by rw [State.live, State.advance_status, hrun, Status.isFaulted_running]
  rw [step_eq_retire hvalid hrun hbudget hfetch, exec_fetched_of_unrecognised hword, retire_live live]
  rfl

end Sys2Proof.Machine
end

section
/-! PROOFS. Errors: which command raises which, what their records hold, and that none is followed by a step
(60_exceptions.md). -/

namespace Sys2Proof.Machine

/-! ### What the pseudocode raises (R162) -/

theorem map_error {ε α β : Type} {f : α → β} {r : Except ε α} {e : ε} (h : r.map f = .error e) : r = .error e := by
  cases r with
  | ok a => cases h
  | error e' => rw [Except.error.inj h]

section
variable {s : State} {push load : Bool} {addr : Word} {kind : ErrorKind}

theorem mtxProjection_eq_error (h : s.mtxProjection load addr = .error kind) :
    kind = .outOfRange ∨ (load = false ∧ kind = .uninitializedRead) := by
  by_cases hin : s.resolve addr + 64 ≤ s.input.memSize
  · rw [mtxProjection_inImage hin] at h
    obtain ⟨hload, -, hkind⟩ := combine_eq_error (map_error h)
    exact .inr ⟨hload, hkind⟩
  · rw [State.mtxProjection, loadMtx_past (by omega)] at h
    exact .inl (Except.error.inj h).symm

theorem mtxModelview_eq_error (h : s.mtxModelview push load addr = .error kind) :
    (push = true ∧ kind = .stackOverflow) ∨ kind = .outOfRange ∨ (load = false ∧ kind = .uninitializedRead) := by
  cases hpush : s.pushedMsp push with
  | error kind' =>
    obtain ⟨hp, -, hkind⟩ := pushedMsp_eq_error hpush
    rw [State.mtxModelview, hpush] at h
    exact .inl ⟨hp, (Except.error.inj h).symm.trans hkind⟩
  | ok m =>
    right
    by_cases hin : s.resolve addr + 64 ≤ s.input.memSize
    · rw [mtxModelview_inImage (pushedMsp_eq_ok hpush) hin] at h
      obtain ⟨hload, -, hkind⟩ := combine_eq_error (map_error h)
      exact .inr ⟨hload, hkind⟩
    · rw [State.mtxModelview, hpush, loadMtx_past (by omega)] at h
      exact .inl (Except.error.inj h).symm

theorem loadVertices_eq_error {nm1 v0 : BitVec 4} (h : s.loadVertices nm1 v0 addr = .error kind) :
    kind = .uninitializedRead ∨ kind = .outOfRange := by
  cases hF : s.finalMtx with
  | unwritten =>
    rw [loadVertices_unwritten hF] at h
    exact .inl (Except.error.inj h).symm
  | written F =>
    rw [loadVertices_written hF] at h
    exact .inr (loadRecords_eq_error (vtx_registers_exist nm1 v0) (map_error h))

theorem drawTriangle_eq_error {ia ib ic : Byte} (h : s.drawTriangle ia ib ic = .error kind) :
    kind = .invalidVertexIndex ∨ kind = .uninitializedRead := by
  unfold State.drawTriangle at h
  split at h
  · rename_i hA
    exact Except.error.inj h ▸ indexedVertex_eq_error hA
  · rename_i hB
    exact Except.error.inj h ▸ indexedVertex_eq_error hB
  · rename_i hC
    exact Except.error.inj h ▸ indexedVertex_eq_error hC
  · cases h

/-- R162: the pseudocode of each command raises only what the table gives the command. -/
theorem mayRaise_of_effect {i : Instr} (h : effect i s = .error kind) : mayRaise i kind = true := by
  cases i with
  | mtx push load proj addr =>
    cases proj with
    | true =>
      obtain rfl | ⟨rfl, rfl⟩ := mtxProjection_eq_error (map_error h) <;> rfl
    | false =>
      obtain ⟨rfl, rfl⟩ | rfl | ⟨rfl, rfl⟩ := mtxModelview_eq_error (map_error h) <;> rfl
  | vtx nm1 v0 addr =>
    obtain rfl | rfl := loadVertices_eq_error h <;> rfl
  | dl addr =>
    obtain ⟨-, rfl⟩ := pushReturn_eq_error (map_error h)
    rfl
  | popmtx =>
    obtain ⟨-, rfl⟩ := popMsp_eq_error (map_error h)
    rfl
  | tri1 ia ib ic =>
    obtain rfl | rfl := drawTriangle_eq_error h <;> rfl
  | dlNopush | enddl | mwSegment | noopMovewordOther | noopUnrecognized => cases h

end

/-! ### The error record (R164) -/

/-- R37: no write of a command fails the parse. -/
theorem Writes.live {s u : State} {b : Bool} (h : Writes s b u) (live : s.live) : u.live := by
  cases h with
  | ended => rfl
  | _ => exact live

/-- A command that answers a failed state from one that had not failed raised: its pseudocode gave the error. -/
theorem effect_error_of_faulted {i : Instr} {s t : State} {err : ErrorRecord} (live : s.live)
    (h : exec i s = .next t) (failed : t.status = .faulted err) :
    ∃ kind, effect i s = .error kind ∧ err = ⟨kind, s.pc - 8, some i.opcode⟩ := by
  rw [exec_eq_finish] at h
  obtain hok | ⟨kind, herror, rfl⟩ := finish_eq_next h
  · have := (effect_writes hok).live live
    simp [State.live, failed] at this
  · exact ⟨kind, herror, (Status.faulted.inj failed).symm⟩

/-- R161, D21: the codes in the order of the table. -/
theorem ErrorKind.code_mem_table (kind : ErrorKind) : (kind, kind.code) ∈
    [(ErrorKind.outOfRange, 1), (.stackOverflow, 2), (.stackUnderflow, 3), (.unboundedExecution, 4),
      (.uninitializedRead, 5), (.invalidVertexIndex, 6)] := by
  cases kind <;> decide

/-- Settles O53: a raise holds the kind that the pseudocode gave and the command's own address and opcode; the code of a
record is that of its kind, whatever step left it. -/
theorem commandErrorsByTable : Obligations.CommandErrorsByTable := by
  refine ⟨fun s t i err live h failed => ?_, fun _ _ err _ _ => err.kind.code_mem_table⟩
  obtain ⟨kind, herror, rfl⟩ := effect_error_of_faulted live h failed
  exact ⟨mayRaise_of_effect herror, rfl, rfl⟩

/-! ### The end of a parse -/

/-- Settles O10: the budget check comes before the bounds check of the fetch. -/
theorem budgetEndsParse : Obligations.BudgetEndsParse := by
  intro s hvalid hrun hbudget
  have hfetch : s.fetchError? = some ⟨.unboundedExecution, s.pc, none⟩ := if_pos hbudget
  exact ⟨_, step_of_fetchError hvalid hrun hfetch, s.abort_status _⟩

/-- Settles O15: an abort keeps the valid configuration the last step ran, so a further step only meets `Faulted`. -/
theorem abortIsFinal : Obligations.AbortIsFinal := by
  intro s t err h failed
  obtain ⟨hvalid, -, -⟩ := step_cases h
  rw [← (step_keeps_configuration h).1] at hvalid
  simp [step, stepWith, State.presents, hvalid, failed]

end Sys2Proof.Machine
end

section
/-! PROOFS. The start of a parse: which configurations start, the state that they start in, and that it meets the
invariant (70_reset_and_hazards.md R180, R182). -/

namespace Sys2Proof.Machine

/-! ### The domain of configurations (R6, R182, D28) -/

theorem ParseInput.valid_iff (inp : ParseInput) : inp.valid = true ↔
    1 ≤ inp.memSize ∧ inp.memSize ≤ 4294967296 ∧ 1 ≤ inp.width ∧ 1 ≤ inp.height ∧ 1 ≤ inp.maxSteps :=
  decide_eq_true_iff

theorem ParseInput.valid_eq_false_iff (inp : ParseInput) : inp.valid = false ↔
    inp.width = 0 ∨ inp.height = 0 ∨ inp.maxSteps = 0 ∨ inp.memSize = 0 ∨ 4294967296 < inp.memSize := by
  rw [← Bool.not_eq_true, ParseInput.valid_iff]
  omega

theorem startParse_of_valid {inp : ParseInput} (h : inp.valid = true) : startParse inp = .ok (State.start inp) :=
  if_pos h

theorem startParse_of_invalid {inp : ParseInput} (h : inp.valid = false) :
    startParse inp = .error .invalidConfiguration :=
  if_neg (ne_true_of_eq_false h)

theorem step_of_invalid {s : State} (h : s.input.valid = false) : step s = .refused .invalidConfiguration :=
  if_neg (ne_true_of_eq_false h)

/-- Settles O12: each disjunct puts the configuration outside the domain, which the start and the step both check. -/
theorem invalidConfigurationRefused : Obligations.InvalidConfigurationRefused := by
  intro s h
  have hinvalid : s.input.valid = false := s.input.valid_eq_false_iff.mpr h
  exact ⟨startParse_of_invalid hinvalid, step_of_invalid hinvalid⟩

/-! ### The start state (R180) -/

theorem State.start_vr_getElem (inp : ParseInput) (k : Fin 64) : (State.start inp).vr[k] = .unwritten :=
  Vector.getElem_replicate k.isLt

theorem State.start_seg_getElem (inp : ParseInput) (k : Fin 16) : (State.start inp).seg[k] = 0 :=
  Vector.getElem_replicate k.isLt

theorem State.start_ms_getElem (inp : ParseInput) (k : Fin 16) : (State.start inp).ms[k] = .unwritten :=
  Vector.getElem_replicate k.isLt

/-- Settles O8: the premises are the domain that the start checks; the elements are those of `State.start`, one by
one. -/
theorem parseStartState : Obligations.ParseStartState := by
  intro inp
  refine ⟨fun hmem hmem' hwidth hheight hsteps => ?_, State.start_pc inp, State.start_vr_getElem inp,
    State.start_seg_getElem inp, State.start_ms_getElem inp, State.start_msp inp, State.start_projMtx inp,
    State.start_finalMtx inp, State.start_screenMtx inp, State.start_jsp inp, State.start_vout inp,
    State.start_fout inp, State.start_cmdCount inp, State.start_triCount inp, State.start_vtxCount inp,
    State.start_status inp, State.start_input inp⟩
  have hvalid : inp.valid = true := inp.valid_iff.mpr ⟨hmem, hmem', hwidth, hheight, hsteps⟩
  exact ⟨hvalid, startParse_of_valid hvalid⟩

/-! ### The invariant at the start -/

/-- R35, D8: with no projection written, the final matrix of R123 is `Unwritten`, as it starts. -/
theorem State.start_finalFresh (inp : ParseInput) : (State.start inp).finalFresh :=
  (finalOf_unwritten (State.start inp).screenMtx (.inr (State.start_projMtx inp))).symm

/-- R180: empty outputs and zero counters number no face. -/
theorem State.start_outputsNumbered (inp : ParseInput) : (State.start inp).OutputsNumbered 0 where
  triCount_eq := rfl
  vtxCount_eq := rfl
  vout_length := rfl
  faces := fun k hk => absurd hk k.not_lt_zero
  fout_bound := Nat.le_refl 0

/-- R180, R36: no return address is live at the start, so `pc` is the only address to bound. -/
theorem State.start_addressesBounded {inp : ParseInput} (h : inp.startAddr ≤ 4294967296) :
    (State.start inp).AddressesBounded where
  pc_bound := h
  js_bound := fun k hk => absurd hk k.not_lt_zero

/-- Settles O54: freshness, numbering and bounds each hold at the start, and no command has been counted. -/
theorem invariantAtStart : Obligations.InvariantAtStart := by
  intro inp hstart
  exact { State.start_outputsNumbered inp, State.start_addressesBounded hstart with
    finalFresh := State.start_finalFresh inp
    budget := Nat.zero_le inp.maxSteps }

end Sys2Proof.Machine
end
